-- ==== Sys2Proof/Word.lean ====
section
/-! DEFINITION. The bit and word types of the port (spec 00_scope.md R10, R11; 30_encoding.md R60, R69). -/

namespace Sys2Proof

/-- One bit, an element of {0, 1} (R10). -/
abbrev Bit := Bool

/-- A command word `W`, bit 31 the most significant (R60). -/
abbrev Word := BitVec 32

/-- A response word `RSP` (R69). -/
abbrev RspWord := BitVec 64

/-- The 56-bit payload field of a response (R69). -/
abbrev Payload := BitVec 56

end Sys2Proof
end

