-- ==== Sys2Proof/Syntax.lean ====
section
/-! DEFINITION. The commands of the engine, one constructor per row of spec/opcode_table.json (30_encoding.md R61 to R65). -/

namespace Sys2Proof

/-- A command. Operand fields as R61 to R64 and R67, R68 give them: `klen` and `idx` are unsigned numbers read as
naturals, `cap` and `d` are bits, `key` is the packed key field, `key[0]` its most significant bit. -/
inductive Instr where
  /-- Format K (R61). -/
  | loadkey (cap : Bit) (klen : Nat) (key : BitVec 23)
  /-- Format S (R62). -/
  | step (d : Bit)
  /-- Format N, `op` 011 (R63). -/
  | rdinit
  /-- Format T (R64). -/
  | rdtrace (idx : Nat)
  /-- Format N, `op` 101 (R63). -/
  | rdstat
  deriving DecidableEq, Repr

end Sys2Proof
end

