-- ==== Sys2Proof/WellFormed.lean ====
section
/-! DEFINITION. When a command's operands fit the fields of its format (30_encoding.md R61, R64). -/

namespace Sys2Proof

/-- The number operands fit their fields: `klen` is 0..31 (R61), `idx` is 0 .. 2^29 - 1 (R64). -/
def Instr.wellFormed : Instr → Bool
  | .loadkey _ klen _ => decide (klen < 32)
  | .step _ => true
  | .rdinit => true
  | .rdtrace idx => decide (idx < 2 ^ 29)
  | .rdstat => true

end Sys2Proof
end

