-- ==== Sys2Proof/Decode.lean ====
section
/-! DEFINITION. Decoding and encoding of command words (30_encoding.md R60 to R68). -/

namespace Sys2Proof

/-- Why a word is illegal (R66). Both are answered with the one status `IllegalCommand`: the name never reaches the
host (DESIGN CHOICE, log 11, safe). -/
inductive Illegal where
  /-- `op` is 000, 110 or 111. -/
  | reservedOp
  /-- A reserved bit of `STEP`, `RDINIT` or `RDSTAT` is not 0. -/
  | reservedBits
  deriving DecidableEq, Repr

/-- The operation field `W[31:29]` (R60). -/
def opField (w : Word) : BitVec 3 := w.extractLsb' 29 3

/-- Decoding, total: one of the five commands or illegal (R65, R66), operands by R67 and R68. -/
def decode (w : Word) : Except Illegal Instr :=
  if opField w = 0b001#3 then
    .ok (.loadkey (w.getLsbD 28) (w.extractLsb' 23 5).toNat (w.extractLsb' 0 23))
  else if opField w = 0b010#3 then
    if w.extractLsb' 1 28 = 0#28 then .ok (.step (w.getLsbD 0)) else .error .reservedBits
  else if opField w = 0b011#3 then
    if w.extractLsb' 0 29 = 0#29 then .ok .rdinit else .error .reservedBits
  else if opField w = 0b100#3 then
    .ok (.rdtrace (w.extractLsb' 0 29).toNat)
  else if opField w = 0b101#3 then
    if w.extractLsb' 0 29 = 0#29 then .ok .rdstat else .error .reservedBits
  else .error .reservedOp

/-- The word of a command, by its format (R61 to R64). -/
def encode : Instr → Word
  | .loadkey cap klen key => (0b001#3 ++ BitVec.ofBool cap ++ BitVec.ofNat 5 klen ++ key : BitVec 32)
  | .step d => (0b010#3 ++ 0#28 ++ BitVec.ofBool d : BitVec 32)
  | .rdinit => (0b011#3 ++ 0#29 : BitVec 32)
  | .rdtrace idx => (0b100#3 ++ BitVec.ofNat 29 idx : BitVec 32)
  | .rdstat => (0b101#3 ++ 0#29 : BitVec 32)

/-- The `match` column of R65. -/
def rowMatch : Instr → Word
  | .loadkey _ _ _ => 0x20000000#32
  | .step _ => 0x40000000#32
  | .rdinit => 0x60000000#32
  | .rdtrace _ => 0x80000000#32
  | .rdstat => 0xA0000000#32

/-- The `mask` column of R65. -/
def rowMask : Instr → Word
  | .loadkey _ _ _ => 0xE0000000#32
  | .step _ => 0xFFFFFFFE#32
  | .rdinit => 0xFFFFFFFF#32
  | .rdtrace _ => 0xE0000000#32
  | .rdstat => 0xFFFFFFFF#32

/-- The command word whose low `nbits` bits are `w` and whose other bits are 0 (log 15). -/
def tableWord (nbits w : Nat) : Word := BitVec.ofNat 32 (w % 2 ^ nbits)

/-- What the decoder reads from the bits `w` of a row of spec/opcode_table.json. -/
def decodeTableWord (nbits w : Nat) : Option Instr :=
  match decode (tableWord nbits w) with
  | .ok i => some i
  | .error _ => none

end Sys2Proof
end

