-- ==== Sys2Proof/Machine/State.lean ====
section
/-! DEFINITION. The state of one engine instance and its port (10_state.md), the state after reset (R39), and the ways a
step can stop. -/

namespace Sys2Proof.Machine

/-- The CipherState, "the triple (X, Y, Z) at a point in time" (R22): 6, 8 and 9 bits (R20, R21). Sequence index 0 is the
most significant bit (R10, R11; log 10). -/
structure CipherState where
  x : BitVec 6
  y : BitVec 8
  z : BitVec 9
  deriving DecidableEq, Repr

/-- A StepRecord (R28), fields in the order of the spec. -/
structure StepRecord where
  cx : Bit
  cy : Bit
  cz : Bit
  m : Bit
  rx : Bit
  ry : Bit
  rz : Bit
  pre : CipherState
  post : CipherState
  s : Bit
  d : Bit
  o : Bit
  deriving DecidableEq, Repr

/-- What the host can do to the engine (70_reset_and_hazards.md R209): send one command word, or raise the reset input
(R200: "the only transition besides the five commands"). -/
inductive HostEvent where
  | command (w : Word)
  | reset
  deriving DecidableEq, Repr

/-- The state. `loaded` to `trace` are the engine's own (R20 to R29); `inbox` and `outbox` are the host's side of the
command port and no storage of the engine (logs 1 and 2). -/
structure State where
  /-- `LOADED` (R26). -/
  loaded : Bit
  /-- `CAP` (R27). -/
  cap : Bit
  /-- X, Y and Z; `none` while they "hold no value": "no CipherState (an option type)" (R39; log 4). -/
  regs : Option CipherState
  /-- `INIT`; `none` is the spec's "absent" (R27, R29). -/
  init : Option CipherState
  /-- `TRACE`, oldest record first; `none` is the spec's "absent", no trace exists (R29, R30). -/
  trace : Option (List StepRecord)
  /-- The host's inputs that the engine has not taken yet, oldest first. -/
  inbox : List HostEvent
  /-- The responses given so far, oldest first. No meaning reads it (R174). -/
  outbox : List RspWord
  deriving DecidableEq, Repr

/-- The machine right after reset (R39, R201), no input pending and no response given (logs 1 and 2). -/
def State.reset : State :=
  { loaded := false, cap := false, regs := none, init := none, trace := none, inbox := [], outbox := [] }

/-- Why the machine stops with a fault: never. The engine "has no fatal/unrecoverable error class" and every error is a
result (60_exceptions.md R170, R174, R179), so the type has no constructor (log 18). -/
inductive Fault where
  deriving DecidableEq, Repr

/-- Why the model has no meaning for a command. -/
inductive Refusal where
  /-- Raised by an arm of `exec` whose instruction has no meaning yet (safe). No arm raises it. -/
  | notModelled (mnemonic : String)
  /-- Raised by a capturing `STEP` at a full trace store of finite `TRACE_DEPTH` (10_state.md R30, "it is refused"; safe,
  log 7). The engine's default depth is unbounded and never raises it. -/
  | traceStoreFull
  deriving DecidableEq, Repr

end Sys2Proof.Machine
end

