-- ==== Sys2Proof/Machine/Operands.lean ====
section
/-! DEFINITION. Bit sequences in words: reading a bit, `pack` and `unpack`, the key operand, ST23, the packed StepRecord
and the response word (00_scope.md R10, R11; 20_memory.md R43; 30_encoding.md R67 to R73). -/

namespace Sys2Proof.Machine

/-- `r[i]`, the bit of sequence index `i`: index 0 is the most significant bit (R10, R11, R13). -/
def bit {n : Nat} (r : BitVec n) (i : Nat) : Bit := r.getMsbD i

/-- `pack` of the sequence `f 0, f 1, …, f (n-1)`: `f 0` is the most significant bit (R11). -/
def packFn : (n : Nat) → (Nat → Bit) → BitVec n
  | 0, _ => 0#0
  | n + 1, f => BitVec.cons (f 0) (packFn n (fun i => f (i + 1)))

/-- `unpack_n`: the sequence of the bits of a word, most significant first (R11). -/
def unpack {n : Nat} (w : BitVec n) : List Bit := (List.range n).map (bit w)

/-- A bit as a symbol of a key (R90: a symbol is a bit iff it is 0 or 1). -/
def symbol (b : Bit) : Nat := if b then 1 else 0

/-- `unpack_23(key)` as the symbols handed to `load_key` (R67, R93). -/
def unpackKey (key : BitVec 23) : List Nat := (unpack key).map symbol

/-- `ST23 = pack(X ++ Y ++ Z)` (R43). -/
def st23 (S : CipherState) : BitVec 23 := (S.x ++ S.y ++ S.z : BitVec (6 + 8 + 9))

/-- The packed StepRecord `SR`, 56 bits, fields from the most significant end (R73). -/
def packRecord (r : StepRecord) : Payload :=
  (BitVec.ofBool r.cx ++ BitVec.ofBool r.cy ++ BitVec.ofBool r.cz ++ BitVec.ofBool r.m
    ++ BitVec.ofBool r.rx ++ BitVec.ofBool r.ry ++ BitVec.ofBool r.rz
    ++ st23 r.pre ++ st23 r.post
    ++ BitVec.ofBool r.s ++ BitVec.ofBool r.d ++ BitVec.ofBool r.o
    : BitVec (1 + 1 + 1 + 1 + 1 + 1 + 1 + 23 + 23 + 1 + 1 + 1))

/-- The errors of R171. -/
inductive EngineError where
  | invalidKeyLength
  /-- Function level only (R94, R187). -/
  | invalidBitValue
  /-- The external codec only (R163, R188). -/
  | invalidDataLength
  /-- The external codec only (R163, R188). -/
  | invalidCharacter
  | noKeyLoaded
  | traceUnavailable
  | illegalCommand
  deriving DecidableEq, Repr

/-- `OK` is code 0 (R70). -/
def okCode : BitVec 3 := 0

/-- The status code of an error (R70, R171). -/
def errorCode : EngineError → BitVec 3
  | .invalidKeyLength => 1
  | .invalidBitValue => 2
  | .invalidDataLength => 3
  | .invalidCharacter => 4
  | .noKeyLoaded => 5
  | .traceUnavailable => 6
  | .illegalCommand => 7

/-- `respond(status, payload)` as a word (R69, R72). -/
def respondWord (status : BitVec 3) (payload : Payload) : RspWord :=
  (status ++ 0#5 ++ payload : BitVec (3 + 5 + 56))

/-- An error response is `respond(code, 0)` (R72). -/
def errorWord (e : EngineError) : RspWord := respondWord (errorCode e) 0

/-- The fields of a response word (R69). -/
def rspStatus (r : RspWord) : BitVec 3 := r.extractLsb' 61 3
def rspPayload (r : RspWord) : Payload := r.extractLsb' 0 56

end Sys2Proof.Machine
end

