-- ==== Sys2Proof/Config.lean ====
section
/-! DEFINITION. The parameters of the engine that the spec leaves open (spec 00_scope.md R7, R8; 10_state.md R30, R36).
Their values stand in Machine/Params.lean. There is no free value: the spec has no `any value` (93_implementation_defined.md). -/

namespace Sys2Proof

/-- The OPEN parameters: the three feedback tap sets (92_eei_decisions.md D2) and the depth of the trace store
(D11; `none` is the spec's default, unbounded). "They are parameters of the model, not state" (R36). -/
structure Params where
  tapsX : List Nat
  tapsY : List Nat
  tapsZ : List Nat
  traceDepth : Option Nat
  deriving DecidableEq, Repr

/-- `taps` lists a non-empty subset of the index range of a register of length `len` (R8). A set, so no repeats. -/
def tapSetLegal (len : Nat) (taps : List Nat) : Bool :=
  !taps.isEmpty && taps.all (fun i => decide (i < len)) && decide taps.Nodup

/-- The parameters meet R8. -/
def Params.legal (p : Params) : Bool :=
  tapSetLegal 6 p.tapsX && tapSetLegal 8 p.tapsY && tapSetLegal 9 p.tapsZ

end Sys2Proof
end

