-- ==== Sys2Proof/Machine/Params.lean ====
section
/-! DEFINITION. The values of the engine's constants (00_scope.md R7; 10_state.md R36). -/

namespace Sys2Proof.Machine

/-- The parameters the engine of this model runs with. PRESUMED (log 5, unsafe): the tap sets are the spec's default
"from general knowledge, not in source" (R110). DESIGN CHOICE (log 7, unsafe for runs longer than a physical store): the trace store is unbounded, the spec's
default (R30). -/
def engineParams : Params :=
  { tapsX := [2, 4, 5], tapsY := [6, 7], tapsZ := [2, 7, 8], traceDepth := none }

/-- Control-bit positions (R7, R100; DEDUCED by the spec's C1, log 6). -/
def ctrlX : Nat := 1
def ctrlY : Nat := 3
def ctrlZ : Nat := 3

/-- Output positions, the last index of each register (R7, R125). -/
def outX : Nat := 5
def outY : Nat := 7
def outZ : Nat := 8

/-- `KEYLEN` (R7). -/
def keyLen : Nat := 23

end Sys2Proof.Machine
end

