-- ==== Sys2Proof/Machine/Flags.lean ====
section
/-! DEFINITION. Clock control: the control bits, the majority and the rotate flags (41_majority_clock_control.md), and the
status view (10_state.md R37). -/

namespace Sys2Proof.Machine

/-- `ctrl(S) = (X[1], Y[3], Z[3])` (R100). -/
def ctrl (S : CipherState) : Bit × Bit × Bit := (bit S.x ctrlX, bit S.y ctrlY, bit S.z ctrlZ)

/-- `maj(a, b, c) = (a & b) | (a & c) | (b & c)` (R101). -/
def maj (a b c : Bit) : Bit := (a && b) || (a && c) || (b && c)

/-- The majority and the three rotate flags (R102). -/
structure RotEn where
  m : Bit
  rx : Bit
  ry : Bit
  rz : Bit
  deriving DecidableEq, Repr

/-- `rot_en(S)` (R102). -/
def rotEn (S : CipherState) : RotEn :=
  let m := maj (ctrl S).1 (ctrl S).2.1 (ctrl S).2.2
  { m := m, rx := (ctrl S).1 == m, ry := (ctrl S).2.1 == m, rz := (ctrl S).2.2 == m }

/-- `TLEN = len(TRACE)`, 0 when no trace exists (R29, R37). -/
def State.tlen (s : State) : Nat := (s.trace.getD []).length

/-- The largest `TLEN` the status shows, `2^29 - 1` (R37). -/
def tlenMax : Nat := 2 ^ 29 - 1

/-- The payload of `RDSTAT` (R37, R149): bit 30 `LOADED`, bit 29 `CAP`, bits 28:0 the saturated `TLEN`. -/
def State.statusWord (s : State) : Payload :=
  let t := if s.loaded && s.cap then min s.tlen tlenMax else 0
  (0#25 ++ BitVec.ofBool s.loaded ++ BitVec.ofBool s.cap ++ BitVec.ofNat 29 t : BitVec (25 + 1 + 1 + 29))

end Sys2Proof.Machine
end

