-- ==== Sys2Proof/Machine/Ops.lean ====
section
/-! DEFINITION. The named operations on the state that the meanings share: taking an input, answering, raising an error,
starting a session, writing the registers, the trace store (TraceAppend, TraceRead), and reset
(00_scope.md R13; 60_exceptions.md R173; 70_reset_and_hazards.md R201). -/

namespace Sys2Proof.Machine

/-- The engine has taken the oldest input; `rest` is left. -/
def State.withInbox (s : State) (rest : List HostEvent) : State := { s with inbox := rest }

/-- Give a response word to the host. -/
def State.answer (s : State) (r : RspWord) : State := { s with outbox := s.outbox ++ [r] }

/-- `respond(OK, payload)` (R72). -/
def State.respondOk (s : State) (payload : Payload) : State := s.answer (respondWord okCode payload)

/-- `raise E` at port level: no register, flag, INIT or TRACE is written, the answer is `respond(code(E), 0)`
(R173). There is no trap entry and no return (R177, R178): this is all an error does. -/
def State.raise (s : State) (e : EngineError) : State := s.answer (errorWord e)

/-- `X <- S.X ; Y <- S.Y ; Z <- S.Z` (R93, R130). -/
def State.setRegs (s : State) (S : CipherState) : State := { s with regs := some S }

/-- What a successful `LOADKEY` writes (R93): the registers, `LOADED`, `CAP`, and a fresh trace or none. -/
def State.beginSession (s : State) (cap : Bit) (S : CipherState) : State :=
  { s with
    loaded := true
    cap := cap
    regs := some S
    init := if cap then some S else none
    trace := if cap then some [] else none }

/-- `TraceAppend(rec)` (R13): where no trace exists there is nothing to append to (log 8). -/
def State.traceAppend (s : State) (rec : StepRecord) : State :=
  { s with trace := s.trace.map (fun recs => recs ++ [rec]) }

/-- `TraceRead(i)` (R13, R45); `none` where the index names no record. -/
def State.traceRead (s : State) (i : Nat) : Option StepRecord := (s.trace.getD [])[i]?

/-- A capturing `STEP` finds the trace store full: `TLEN = TRACE_DEPTH` for a finite depth (R30). -/
def State.traceFull (p : Params) (s : State) : Bool :=
  s.cap && (match p.traceDepth with
    | none => false
    | some depth => decide (depth ≤ s.tlen))

/-- The effect of the reset input (R200, R201): the engine's state is that of R39. What is on the host's side of the port
stays (log 9). -/
def State.resetEngine (s : State) : State := { State.reset with inbox := s.inbox, outbox := s.outbox }

end Sys2Proof.Machine
end

