-- ==== Sys2Proof/Machine/KeyLoading.lean ====
section
/-! DEFINITION. Key loading: `load_key` and `LOADKEY` (40_key_loading.md). -/

namespace Sys2Proof.Machine

/-- `X = k[0:6]`, `Y = k[6:14]`, `Z = k[14:23]` (R90, R91). -/
def splitKey (k : List Nat) : CipherState :=
  { x := packFn 6 (fun i => k.getD i 0 == 1)
    y := packFn 8 (fun i => k.getD (6 + i) 0 == 1)
    z := packFn 9 (fun i => k.getD (14 + i) 0 == 1) }

/-- `load_key(k)`: the length is checked first, then the elements (R90, R92). -/
def loadKey (k : List Nat) : Except EngineError CipherState :=
  if k.length ≠ keyLen then .error .invalidKeyLength
  else if k.any (fun a => decide (1 < a)) then .error .invalidBitValue
  else .ok (splitKey k)

/-- `LOADKEY` (R93). -/
def execLoadkey (cap : Bit) (klen : Nat) (key : BitVec 23) (s : State) : Host.Outcome State Fault Refusal :=
  if klen ≠ keyLen then .next (s.raise .invalidKeyLength)
  else
    match loadKey (unpackKey key) with
    | .error e => .next (s.raise e)
    | .ok S => .next ((s.beginSession cap S).respondOk ((st23 S).zeroExtend 56))

end Sys2Proof.Machine
end

