-- ==== Sys2Proof/Machine/Rotation.lean ====
section
/-! DEFINITION. Rotation with feedback: `fb`, `rot_X`, `rot_Y`, `rot_Z`, `clock` (42_rotation_feedback.md). -/

namespace Sys2Proof.Machine

/-- `fb_R(r) = XOR of r[i] for i in TAPS_R`, 0 for the empty set (R110, R12). -/
def feedback {n : Nat} (taps : List Nat) (r : BitVec n) : Bit :=
  taps.foldr (fun i acc => bit r i ^^ acc) false

/-- `new[0] = fb(r)`, `new[i] = r[i-1]`, the last bit dropped (R111 to R114). -/
def rotate {n : Nat} (taps : List Nat) (r : BitVec n) : BitVec n :=
  packFn n (fun
    | 0 => feedback taps r
    | i + 1 => bit r i)

/-- `rot_X` (R111). -/
def rotX (p : Params) (x : BitVec 6) : BitVec 6 := rotate p.tapsX x

/-- `rot_Y` (R112). -/
def rotY (p : Params) (y : BitVec 8) : BitVec 8 := rotate p.tapsY y

/-- `rot_Z` (R113). -/
def rotZ (p : Params) (z : BitVec 9) : BitVec 9 := rotate p.tapsZ z

/-- `clock(S)`: the new state and the decision, all from the old state (R115). -/
def clock (p : Params) (S : CipherState) : CipherState × RotEn :=
  ({ x := if (rotEn S).rx then rotX p S.x else S.x
     y := if (rotEn S).ry then rotY p S.y else S.y
     z := if (rotEn S).rz then rotZ p S.z else S.z }, rotEn S)

end Sys2Proof.Machine
end

