-- ==== Sys2Proof/Machine/Keystream.lean ====
section
/-! DEFINITION. The keystream bit and the single step: `ks`, `step` and `STEP` (43_keystream_step.md). -/

namespace Sys2Proof.Machine

/-- `ks(S) = X[5] ^ Y[7] ^ Z[8]` (R125); its argument is the state AFTER rotation (R126). -/
def ks (S : CipherState) : Bit := bit S.x outX ^^ bit S.y outY ^^ bit S.z outZ

/-- `step(S, d)` (R128): the next CipherState and the StepRecord. -/
def cipherStep (p : Params) (S : CipherState) (d : Bit) : CipherState × StepRecord :=
  let post := (clock p S).1
  let dec := (clock p S).2
  let s := ks post
  (post,
    { cx := (ctrl S).1, cy := (ctrl S).2.1, cz := (ctrl S).2.2
      m := dec.m, rx := dec.rx, ry := dec.ry, rz := dec.rz
      pre := S, post := post, s := s, d := d, o := d ^^ s })

/-- A successful `STEP` from the CipherState `S`: registers, trace, answer (R130, R131). -/
def State.afterStep (p : Params) (S : CipherState) (d : Bit) (s : State) : State :=
  let res := cipherStep p S d
  let s1 := s.setRegs res.1
  (if s.cap then s1.traceAppend res.2 else s1).respondOk (packRecord res.2)

/-- `STEP` for any parameters (R130). With no CipherState it answers `NoKeyLoaded`; that `LOADED` = 1 goes with a
CipherState is an invariant (log 8). A full trace store of finite depth is refused (R30). -/
def stepCommand (p : Params) (d : Bit) (s : State) : Host.Outcome State Fault Refusal :=
  match s.loaded, s.regs with
  | true, some S => if s.traceFull p then .refused .traceStoreFull else .next (s.afterStep p S d)
  | _, _ => .next (s.raise .noKeyLoaded)

/-- `STEP` (R130) with the engine's parameters. -/
def execStep (d : Bit) (s : State) : Host.Outcome State Fault Refusal := stepCommand engineParams d s

end Sys2Proof.Machine
end

