-- ==== Sys2Proof/Machine/Readout.lean ====
section
/-! DEFINITION. Reading the trace and the status: `RDINIT`, `RDTRACE`, `RDSTAT` (44_stream_processing_trace.md R147 to R149). -/

namespace Sys2Proof.Machine

/-- `RDINIT` (R147). `TraceUnavailable` also where `CAP` = 1 and no INIT exists, which the invariant rules out (log 8). -/
def execRdinit (s : State) : Host.Outcome State Fault Refusal :=
  if s.loaded then
    if s.cap then
      match s.init with
      | some S => .next (s.respondOk ((st23 S).zeroExtend 56))
      | none => .next (s.raise .traceUnavailable)
    else .next (s.raise .traceUnavailable)
  else .next (s.raise .noKeyLoaded)

/-- `RDTRACE` (R148): an index at or above `TLEN` names no record. -/
def execRdtrace (idx : Nat) (s : State) : Host.Outcome State Fault Refusal :=
  if s.loaded then
    if s.cap then
      match s.traceRead idx with
      | some rec => .next (s.respondOk (packRecord rec))
      | none => .next (s.raise .traceUnavailable)
    else .next (s.raise .traceUnavailable)
  else .next (s.raise .noKeyLoaded)

/-- `RDSTAT` (R149): never fails. -/
def execRdstat (s : State) : Host.Outcome State Fault Refusal := .next (s.respondOk s.statusWord)

end Sys2Proof.Machine
end

