-- ==== Sys2Proof/Machine/Dispatch.lean ====
section
/-! DEFINITION. One arm per command (30_encoding.md R65, column semantics). -/

namespace Sys2Proof.Machine

def exec (i : Instr) (s : State) : Host.Outcome State Fault Refusal :=
  match i with
  | .loadkey cap klen key => Sys2Proof.Machine.execLoadkey cap klen key s
  | .step d => Sys2Proof.Machine.execStep d s
  | .rdinit => Sys2Proof.Machine.execRdinit s
  | .rdtrace idx => Sys2Proof.Machine.execRdtrace idx s
  | .rdstat => Sys2Proof.Machine.execRdstat s

end Sys2Proof.Machine
end

