-- ==== Sys2Proof/Machine/Port.lean ====
section
/-! DEFINITION. What the engine does with one input of the host (20_memory.md R48; 30_encoding.md R66; 60_exceptions.md R172;
70_reset_and_hazards.md R200). -/

namespace Sys2Proof.Machine

/-- Answer one command word: an illegal word is found at decode, before any state is looked at (R66, R172). -/
def runWord (w : Word) (s : State) : Host.Outcome State Fault Refusal :=
  match decode w with
  | .ok i => exec i s
  | .error _ => .next (s.raise .illegalCommand)

/-- Take the oldest input. With none the engine waits and nothing changes (R201; log 3). -/
def takeInput (s : State) : Host.Outcome State Fault Refusal :=
  match s.inbox with
  | [] => .next s
  | .command w :: rest => runWord w (s.withInbox rest)
  | .reset :: rest => .next (s.withInbox rest).resetEngine

/-- Put a command word at the head of the host's inputs (log 1). -/
def State.withCommand (s : State) (w : Word) : State := s.withInbox (.command w :: s.inbox)

end Sys2Proof.Machine
end

