-- ==== Sys2Proof/Machine/Stream.lean ====
section
/-! DEFINITION. Stream processing at function level: `process`, `encrypt`, `decrypt`, `keystream`
(44_stream_processing_trace.md R140 to R143). -/

namespace Sys2Proof.Machine

/-- A Trace value: the initial CipherState and the ordered records (R29, R140). -/
structure Trace where
  init : CipherState
  recs : List StepRecord
  deriving DecidableEq, Repr

/-- The loop of `process` (R140): the last CipherState and the records in order. -/
def runSteps (p : Params) : CipherState → List Bit → CipherState × List StepRecord
  | S, [] => (S, [])
  | S, d :: ds =>
    let one := cipherStep p S d
    let more := runSteps p one.1 ds
    (more.1, one.2 :: more.2)

/-- `process(S0, D, cap)` (R140): the output bits and, when `cap`, the Trace. -/
def process (p : Params) (S0 : CipherState) (D : List Bit) (cap : Bit) : List Bit × Option Trace :=
  let recs := (runSteps p S0 D).2
  (recs.map (fun r => r.o), if cap then some { init := S0, recs := recs } else none)

/-- `encrypt(K, D, cap)` (R141). -/
def encrypt (p : Params) (K : List Nat) (D : List Bit) (cap : Bit) :
    Except EngineError (List Bit × Option Trace) :=
  match loadKey K with
  | .error e => .error e
  | .ok S0 => .ok (process p S0 D cap)

/-- `decrypt(K, D, cap)`: "the same function" (R141). -/
def decrypt (p : Params) (K : List Nat) (D : List Bit) (cap : Bit) :
    Except EngineError (List Bit × Option Trace) := encrypt p K D cap

/-- `keystream(S0, N)`: the `s` fields of the records of N steps; the data bits do not matter (R143), zeros here. -/
def keystream (p : Params) (S0 : CipherState) (n : Nat) : List Bit :=
  (runSteps p S0 (List.replicate n false)).2.map (fun r => r.s)

end Sys2Proof.Machine
end

