-- ==== Sys2Proof/Machine/Asm.lean ====
section
/-! DEFINITION. The assembler lines and the pseudo-instructions (30_encoding.md R74, R75): what a host writes, expanded into
commands. No command reaches this file. -/

namespace Sys2Proof.Machine

/-- Cut a line at its spaces; `cur` holds the token read so far, reversed. -/
def asmTokens (cur : List Char) : List Char → List (List Char)
  | [] => if cur.isEmpty then [] else [cur.reverse]
  | ch :: rest =>
    if ch = ' ' then
      if cur.isEmpty then asmTokens [] rest else cur.reverse :: asmTokens [] rest
    else asmTokens (ch :: cur) rest

/-- A character 0 or 1. -/
def asmBit (ch : Char) : Option Bit :=
  if ch = '0' then some false else if ch = '1' then some true else none

/-- A string of characters 0 and 1, first character first (R10). -/
def asmBits : List Char → Option (List Bit)
  | [] => some []
  | ch :: rest =>
    match asmBit ch, asmBits rest with
    | some b, some bs => some (b :: bs)
    | _, _ => none

/-- Decimal digits, most significant first; `acc` is the value of the digits before. -/
def asmDigits (acc : Nat) : List Char → Option Nat
  | [] => some acc
  | ch :: rest =>
    if 48 ≤ ch.toNat ∧ ch.toNat ≤ 57 then asmDigits (10 * acc + (ch.toNat - 48)) rest else none

/-- A non-empty decimal numeral. -/
def asmNat (cs : List Char) : Option Nat := if cs.isEmpty then none else asmDigits 0 cs

/-- The text after a prefix. -/
def asmAfter : List Char → List Char → Option (List Char)
  | [], cs => some cs
  | _ :: _, [] => none
  | p :: ps, ch :: cs => if p = ch then asmAfter ps cs else none

/-- The options of a `LOADKEY` line, each at most once, in either order (R74; log 14). -/
def asmOptions (cap : Option Bit) (klen : Option Nat) : List (List Char) → Option (Option Bit × Option Nat)
  | [] => some (cap, klen)
  | tok :: rest =>
    match asmAfter ['c', 'a', 'p', '='] tok, asmAfter ['k', 'l', 'e', 'n', '='] tok with
    | some v, _ =>
      match cap, asmBits v with
      | none, some [b] => asmOptions (some b) klen rest
      | _, _ => none
    | none, some v =>
      match klen, asmNat v with
      | none, some n => asmOptions cap (some n) rest
      | _, _ => none
    | none, none => none

/-- `LOADKEY <key> [cap=<0/1>] [klen=<n>]`: 23 key characters, `cap` defaults to 0, `klen` to 23 (R74). -/
def asmLoadkey (key : List Char) (opts : List (List Char)) : Option Instr :=
  match asmBits key, asmOptions none none opts with
  | some bs, some (cap, klen) =>
    if bs.length = keyLen then
      some (.loadkey (cap.getD false) (klen.getD keyLen) (packFn 23 (fun i => bs.getD i false)))
    else none
  | _, _ => none

/-- The command of a line of R74; `none` where the line is not one, or an operand does not fit its field (log 14). -/
def assemble (line : List Char) : Option Instr :=
  let cmd : Option Instr :=
    match asmTokens [] line with
    | op :: args =>
      if op = ['L', 'O', 'A', 'D', 'K', 'E', 'Y'] then
        match args with
        | key :: opts => asmLoadkey key opts
        | [] => none
      else if op = ['S', 'T', 'E', 'P'] then
        match args.map asmBits with
        | [some [d]] => some (.step d)
        | _ => none
      else if op = ['R', 'D', 'I', 'N', 'I', 'T'] then if args.isEmpty then some .rdinit else none
      else if op = ['R', 'D', 'T', 'R', 'A', 'C', 'E'] then
        match args.map asmNat with
        | [some idx] => some (.rdtrace idx)
        | _ => none
      else if op = ['R', 'D', 'S', 'T', 'A', 'T'] then if args.isEmpty then some .rdstat else none
      else none
    | [] => none
  match cmd with
  | some i => if i.wellFormed then some i else none
  | none => none

/-- `PROCESS key, data, cap=c`: the session's commands (R75). -/
def processCommands (key : BitVec 23) (data : List Bit) (cap : Bit) : List Instr :=
  .loadkey cap keyLen key :: data.map .step

/-- The trace reads that follow `PROCESS` with N data bits when `cap` is 1: `RDINIT`, `RDTRACE 0` .. `RDTRACE N-1` (R75). -/
def traceReadCommands (n : Nat) : List Instr := .rdinit :: (List.range n).map .rdtrace

/-- `ENCRYPT`: "the same as PROCESS" (R75). -/
def encryptCommands (key : BitVec 23) (plain : List Bit) (cap : Bit) : List Instr := processCommands key plain cap

/-- `DECRYPT`: "the same as PROCESS" (R75). -/
def decryptCommands (key : BitVec 23) (cipher : List Bit) (cap : Bit) : List Instr := processCommands key cipher cap

/-- `KEYSTREAM key, n`: `PROCESS key, <n zeros>, cap=0` (R75). -/
def keystreamCommands (key : BitVec 23) (n : Nat) : List Instr :=
  processCommands key (List.replicate n false) false

/-- A host that sends these commands, in order. -/
def asInputs (cmds : List Instr) : List HostEvent := cmds.map (fun i => .command (encode i))

/-- The data bits of the `STEP`s of a command sequence, in order. -/
def stepData : List Instr → List Bit
  | [] => []
  | .step d :: rest => d :: stepData rest
  | .loadkey _ _ _ :: rest => stepData rest
  | .rdinit :: rest => stepData rest
  | .rdtrace _ :: rest => stepData rest
  | .rdstat :: rest => stepData rest

/-- The output bits a host reads from the responses of a command sequence: bit 0 of the response to each `STEP`
(R71: "The output bit `o` of a `STEP` is `payload[0]`"). -/
def stepOutputs : List Instr → List RspWord → List Bit
  | .step _ :: cmds, r :: rs => r.getLsbD 0 :: stepOutputs cmds rs
  | .loadkey _ _ _ :: cmds, _ :: rs => stepOutputs cmds rs
  | .rdinit :: cmds, _ :: rs => stepOutputs cmds rs
  | .rdtrace _ :: cmds, _ :: rs => stepOutputs cmds rs
  | .rdstat :: cmds, _ :: rs => stepOutputs cmds rs
  | [], _ => []
  | _ :: _, [] => []

end Sys2Proof.Machine
end

