-- ==== Sys2Proof/Machine/Codec.lean ====
section
/-! DEFINITION. The external character codec, interface only (45_codec_interface.md R160 to R165): a host-side adapter that
no command reaches (00_scope.md R5; log 13). -/

namespace Sys2Proof.Machine

/-- `letter_index` of A to H (R160); upper case only (R161). -/
def letterIndex (ch : Char) : Option Nat :=
  if 65 ≤ ch.toNat ∧ ch.toNat ≤ 72 then some (ch.toNat - 65) else none

/-- The letter of an index below 8 (R160). -/
def letterOf (i : Nat) : Char := Char.ofNat (65 + i)

/-- The 3-bit group of an index, most significant bit first (R160). -/
def letterGroup (i : Nat) : List Bit := [i.testBit 2, i.testBit 1, i.testBit 0]

/-- `encode_text(t)` (R161). -/
def encodeText : List Char → Except EngineError (List Bit)
  | [] => .ok []
  | ch :: t =>
    match letterIndex ch, encodeText t with
    | some i, .ok bs => .ok (letterGroup i ++ bs)
    | some _, .error e => .error e
    | none, _ => .error .invalidCharacter

/-- The letters of the groups of three, in order. -/
def decodeGroups : List Bit → List Char
  | a :: b :: c :: rest => letterOf (4 * a.toNat + 2 * b.toNat + c.toNat) :: decodeGroups rest
  | _ => []

/-- `decode_bits(b)` (R162). -/
def decodeBits (b : List Bit) : Except EngineError (List Char) :=
  if b.length % 3 ≠ 0 then .error .invalidDataLength else .ok (decodeGroups b)

/-- Text-level use of the engine (R165); the codec's errors come first (60_exceptions.md R176). -/
def encryptText (p : Params) (K : List Nat) (t : List Char) (cap : Bit) : Except EngineError (List Char) :=
  match encodeText t with
  | .error e => .error e
  | .ok D =>
    match encrypt p K D cap with
    | .error e => .error e
    | .ok res => decodeBits res.1

end Sys2Proof.Machine
end

