-- ==== Sys2Proof/Safety.lean ====
section
/-! DEFINITION. What counts as a good state and a good run (10_state.md R26, R27, R31; 43_keystream_step.md R129;
60_exceptions.md R179). -/

namespace Sys2Proof.Machine

/-- The field equations of a StepRecord (R28, R129). -/
structure RecordOk (p : Params) (r : StepRecord) : Prop where
  control : (r.cx, r.cy, r.cz) = ctrl r.pre
  majority : r.m = maj r.cx r.cy r.cz
  flagX : r.rx = (r.cx == r.m)
  flagY : r.ry = (r.cy == r.m)
  flagZ : r.rz = (r.cz == r.m)
  postX : r.post.x = if r.rx then rotX p r.pre.x else r.pre.x
  postY : r.post.y = if r.ry then rotY p r.pre.y else r.pre.y
  postZ : r.post.z = if r.rz then rotZ p r.pre.z else r.pre.z
  keystreamBit : r.s = ks r.post
  outputBit : r.o = (r.d ^^ r.s)

/-- The trace consistency invariants of R31, for the initial state `S0`, the records, and the present registers `S`. -/
structure TraceConsistent (p : Params) (S0 : CipherState) (recs : List StepRecord) (S : CipherState) : Prop where
  /-- "`TRACE[0].pre = INIT` when `TLEN` >= 1". -/
  first : ∀ r, recs[0]? = some r → r.pre = S0
  /-- "`TRACE[i+1].pre = TRACE[i].post`". -/
  chain : ∀ i r r', recs[i]? = some r → recs[i + 1]? = some r' → r'.pre = r.post
  /-- "`(X, Y, Z) = TRACE[TLEN-1].post` when `TLEN` >= 1". -/
  last : ∀ r, recs[recs.length - 1]? = some r → S = r.post
  /-- "`(X, Y, Z) = INIT` when `TLEN` = 0". -/
  empty : recs.length = 0 → S = S0
  /-- "every record satisfies the field equations". -/
  records : ∀ r, r ∈ recs → RecordOk p r

/-- The invariant of the engine's state: the presence of the registers and of the trace goes with the flags (R26, R27, R29,
R39), and a session with capture has a consistent trace (R31). -/
structure Inv (p : Params) (s : State) : Prop where
  loadedRegs : s.loaded = s.regs.isSome
  capLoaded : s.cap = true → s.loaded = true
  capInit : s.cap = s.init.isSome
  capTrace : s.cap = s.trace.isSome
  consistent : ∀ S S0 recs, s.regs = some S → s.init = some S0 → s.trace = some recs → TraceConsistent p S0 recs S

/-- The engine's own state, without the two sides of the port: two machines agree on it. -/
def State.sameEngine (s t : State) : Prop :=
  s.loaded = t.loaded ∧ s.cap = t.cap ∧ s.regs = t.regs ∧ s.init = t.init ∧ s.trace = t.trace

/-- A command is a `LOADKEY` that starts a session (R93, R146). -/
def startsSession : Instr → Bool
  | .loadkey _ klen _ => decide (klen = keyLen)
  | .step _ => false
  | .rdinit => false
  | .rdtrace _ => false
  | .rdstat => false

end Sys2Proof.Machine
end

