-- ==== Sys2Proof/Certificates/Slice0/Obligations.lean ====
section
/-! DEFINITION. The statements for the provers. Each docstring names the rules of spec/ it rests on. The answer of a command
is the word appended to `outbox` (log 2); a host's inputs are the list `inbox` (log 1). -/

open Sys2Proof Sys2Proof.Machine

-- ---------------------------------------------------------------- encoding

/-- R61 to R64: no bit of an encoding is dropped. -/
def Obligations.DecodeOfEncodeGivesTheCommand : Prop :=
  ∀ i : Instr, i.wellFormed = true → decode (encode i) = .ok i

/-- R61 to R64: each legal word is the encoding of the command it decodes to, and that command is well formed. -/
def Obligations.EncodeOfDecodeGivesTheWord : Prop :=
  ∀ (w : Word) (i : Instr), decode w = .ok i → encode i = w ∧ i.wellFormed = true

/-- R65: "A word `W` is the command of a row iff `W & mask == match`", for each of the five rows; the reserved rows of `op`
are illegal. -/
def Obligations.DecodeFollowsMatchAndMask : Prop :=
  ∀ w : Word,
    ((∃ cap klen key, decode w = .ok (.loadkey cap klen key)) ↔ w &&& 0xE0000000#32 = 0x20000000#32) ∧
    ((∃ d, decode w = .ok (.step d)) ↔ w &&& 0xFFFFFFFE#32 = 0x40000000#32) ∧
    (decode w = .ok .rdinit ↔ w &&& 0xFFFFFFFF#32 = 0x60000000#32) ∧
    ((∃ idx, decode w = .ok (.rdtrace idx)) ↔ w &&& 0xE0000000#32 = 0x80000000#32) ∧
    (decode w = .ok .rdstat ↔ w &&& 0xFFFFFFFF#32 = 0xA0000000#32) ∧
    (w.extractLsb' 29 3 ∈ [0b000#3, 0b110#3, 0b111#3] → ∃ e, decode w = .error e)

/-- R66: which words are illegal, the all-zero word among them, and what an illegal word does. -/
def Obligations.IllegalWordsAreExactlyThese : Prop :=
  (∀ w : Word, (∃ e, decode w = .error e) ↔
    w.extractLsb' 29 3 ∈ [0b000#3, 0b110#3, 0b111#3] ∨
    (w.extractLsb' 29 3 = 0b010#3 ∧ w.extractLsb' 1 28 ≠ 0#28) ∨
    (w.extractLsb' 29 3 ∈ [0b011#3, 0b101#3] ∧ w.extractLsb' 0 29 ≠ 0#29)) ∧
  (∃ e, decode 0#32 = .error e) ∧
  (∀ (s : State) (w : Word) (rest : List HostEvent) (e : Illegal),
    s.inbox = .command w :: rest → decode w = .error e →
    step s = .next { s with inbox := rest, outbox := s.outbox ++ [0xE000000000000000#64] })

/-- R67: the key operand of `LOADKEY`; no command word carries a key that `load_key` refuses; with `klen` not 23 the key
field is not looked at. -/
def Obligations.KeyOperandOfLoadkey : Prop :=
  (∀ (w : Word) (cap : Bit) (klen : Nat) (key : BitVec 23), decode w = .ok (.loadkey cap klen key) →
    klen = (w.extractLsb' 23 5).toNat ∧
    (unpackKey key).length = 23 ∧
    (∀ i, i < 23 → (unpackKey key)[i]? = some (if w.getLsbD (22 - i) then 1 else 0))) ∧
  (∀ (key : BitVec 23) (e : EngineError), loadKey (unpackKey key) ≠ .error e) ∧
  (∀ (cap : Bit) (klen : Nat) (key key' : BitVec 23) (s : State), klen ≠ 23 →
    exec (.loadkey cap klen key) s = exec (.loadkey cap klen key') s)

/-- R68: the other operands are plain unsigned fields. -/
def Obligations.OtherOperandsAreUnsignedFields : Prop :=
  ∀ w : Word,
    (∀ cap klen key, decode w = .ok (.loadkey cap klen key) → cap = w.getLsbD 28) ∧
    (∀ d, decode w = .ok (.step d) → d = w.getLsbD 0) ∧
    (∀ idx, decode w = .ok (.rdtrace idx) → idx = (w.extractLsb' 0 29).toNat)

/-- Vectors E1 to E12 of 95_test_vectors.md section 2.6. -/
def Obligations.SampleWordsDecode : Prop :=
  decode 0x3BCA9D30#32 = .ok (.loadkey true 23 0b10010101001110100110000#23) ∧
  decode 0x40000000#32 = .ok (.step false) ∧ decode 0x40000001#32 = .ok (.step true) ∧
  decode 0x60000000#32 = .ok .rdinit ∧
  decode 0x80000000#32 = .ok (.rdtrace 0) ∧ decode 0x80000002#32 = .ok (.rdtrace 2) ∧
  decode 0x9FFFFFFF#32 = .ok (.rdtrace 536870911) ∧
  decode 0xA0000000#32 = .ok .rdstat ∧
  decode 0x20000000#32 = .ok (.loadkey false 0 0#23) ∧
  [0x00000000#32, 0xC0000000#32, 0xE0000000#32, 0xFFFFFFFF#32, 0x40000002#32, 0x50000001#32, 0x60000001#32,
    0xA0000001#32].all (fun w => (decode w).toOption.isNone) = true

-- ---------------------------------------------------------------- words of registers, records and responses

/-- R43: `ST23[22:17]` = X, `ST23[16:9]` = Y, `ST23[8:0]` = Z, element 0 of each at the most significant bit. -/
def Obligations.StateWordLayout : Prop :=
  ∀ S : CipherState,
    (st23 S).extractLsb' 17 6 = S.x ∧ (st23 S).extractLsb' 9 8 = S.y ∧ (st23 S).extractLsb' 0 9 = S.z ∧
    (∀ i, i < 6 → (st23 S).getLsbD (22 - i) = bit S.x i) ∧
    (∀ i, i < 8 → (st23 S).getLsbD (16 - i) = bit S.y i) ∧
    (∀ i, i < 9 → (st23 S).getLsbD (8 - i) = bit S.z i)

/-- R73: every field of the packed StepRecord at its bits; so two records with one packed word are one record; the rule's example. -/
def Obligations.PackedRecordLayout : Prop :=
  (∀ r : StepRecord,
    (packRecord r).getLsbD 55 = r.cx ∧ (packRecord r).getLsbD 54 = r.cy ∧ (packRecord r).getLsbD 53 = r.cz ∧
    (packRecord r).getLsbD 52 = r.m ∧
    (packRecord r).getLsbD 51 = r.rx ∧ (packRecord r).getLsbD 50 = r.ry ∧ (packRecord r).getLsbD 49 = r.rz ∧
    (packRecord r).extractLsb' 26 23 = st23 r.pre ∧ (packRecord r).extractLsb' 3 23 = st23 r.post ∧
    (packRecord r).getLsbD 2 = r.s ∧ (packRecord r).getLsbD 1 = r.d ∧ (packRecord r).getLsbD 0 = r.o) ∧
  (∀ r r' : StepRecord, packRecord r = packRecord r' → r = r') ∧
  packRecord
    { cx := false, cy := false, cz := true, m := false, rx := true, ry := true, rz := false
      pre := { x := 0b100101#6, y := 0b01001110#8, z := 0b100110000#9 }
      post := { x := 0b110010#6, y := 0b10100111#8, z := 0b100110000#9 }
      s := true, d := true, o := false } = 0x2D2A74C32A7986#56

/-- R72: `respond(status, payload)`, and an error response is `respond(code, 0)`. -/
def Obligations.ResponseWordLayout : Prop :=
  (∀ (status : BitVec 3) (payload : BitVec 56),
    (respondWord status payload).extractLsb' 61 3 = status ∧
    (respondWord status payload).extractLsb' 56 5 = 0#5 ∧
    (respondWord status payload).extractLsb' 0 56 = payload) ∧
  (∀ e : EngineError, errorWord e = respondWord (errorCode e) 0#56) ∧
  errorWord .noKeyLoaded = 0xA000000000000000#64

-- ---------------------------------------------------------------- key loading

/-- R90, R91, R92: `load_key` checks the length first, then the elements, and splits a valid key into X, Y, Z. -/
def Obligations.LoadKeyChecksThenSplits : Prop :=
  (∀ k : List Nat, k.length ≠ 23 → loadKey k = .error .invalidKeyLength) ∧
  (∀ k : List Nat, k.length = 23 → (∃ a ∈ k, a ≠ 0 ∧ a ≠ 1) → loadKey k = .error .invalidBitValue) ∧
  (∀ k : List Nat, k.length = 23 → (∀ a ∈ k, a = 0 ∨ a = 1) →
    ∃ S, loadKey k = .ok S ∧
      (∀ i, i < 6 → k[i]? = some (bit S.x i).toNat) ∧
      (∀ i, i < 8 → k[6 + i]? = some (bit S.y i).toNat) ∧
      (∀ i, i < 9 → k[14 + i]? = some (bit S.z i).toNat))

/-- R96: on the valid keys `load_key` is a bijection onto the CipherStates, and `X ++ Y ++ Z = k`. -/
def Obligations.LoadKeyIsABijection : Prop :=
  ∀ S : CipherState,
    (∃! k : List Nat, k.length = 23 ∧ (∀ a ∈ k, a = 0 ∨ a = 1) ∧ loadKey k = .ok S) ∧
    (∀ k : List Nat, loadKey k = .ok S →
      k = (unpack S.x ++ unpack S.y ++ unpack S.z).map (fun b => b.toNat))

/-- R93: `LOADKEY` in every state: what it writes, what it answers, and that a wrong `klen` writes nothing. The whole next
state is given, so this is its frame and its completion too. -/
def Obligations.LoadkeyCommand : Prop :=
  ∀ (s : State) (cap : Bit) (key : BitVec 23),
    (∀ klen : Nat, klen ≠ 23 →
      exec (.loadkey cap klen key) s = .next { s with outbox := s.outbox ++ [0x2000000000000000#64] }) ∧
    (∃ S, loadKey (unpackKey key) = .ok S ∧
      exec (.loadkey cap 23 key) s = .next
        { loaded := true, cap := cap, regs := some S
          init := if cap then some S else none
          trace := if cap then some [] else none
          inbox := s.inbox
          outbox := s.outbox ++ [(st23 S).zeroExtend 64] })

/-- R43, R71, R96: the registers a successful `LOADKEY` leaves hold the key bit for bit, and the answer shows it. -/
def Obligations.LoadkeyAnswersTheKeyItself : Prop :=
  ∀ (s : State) (cap : Bit) (key : BitVec 23),
    ∃ t S, exec (.loadkey cap 23 key) s = .next t ∧ t.regs = some S ∧ st23 S = key ∧
      t.outbox = s.outbox ++ [key.zeroExtend 64]

-- ---------------------------------------------------------------- clock control

/-- R101: 1 iff at least two of the three are 1; symmetric; complementing the arguments complements the result. -/
def Obligations.MajorityIsTwoOfThree : Prop :=
  ∀ a b c : Bit,
    (maj a b c = true ↔ 2 ≤ a.toNat + b.toNat + c.toNat) ∧
    maj a b c = maj b a c ∧ maj a b c = maj a c b ∧
    maj (!a) (!b) (!c) = !(maj a b c)

/-- R100, R102: the control positions are X[1], Y[3], Z[3], and a register is selected iff its control bit is the
majority. -/
def Obligations.RotateDecisionReadsControlBits : Prop :=
  ∀ S : CipherState,
    let m := maj (S.x.getMsbD 1) (S.y.getMsbD 3) (S.z.getMsbD 3)
    ctrl S = (S.x.getMsbD 1, S.y.getMsbD 3, S.z.getMsbD 3) ∧
    (rotEn S).m = m ∧
    ((rotEn S).rx = true ↔ S.x.getMsbD 1 = m) ∧
    ((rotEn S).ry = true ↔ S.y.getMsbD 3 = m) ∧
    ((rotEn S).rz = true ↔ S.z.getMsbD 3 = m)

/-- R103, for every tap set: two or three registers rotate in every step, and a register that does not rotate is the one
whose control bit differs from the two others. -/
def Obligations.TwoOrThreeRegistersRotate : Prop :=
  ∀ (p : Params) (S : CipherState) (d : Bit),
    let r := (cipherStep p S d).2
    (r.rx.toNat + r.ry.toNat + r.rz.toNat = 2 ∨ r.rx.toNat + r.ry.toNat + r.rz.toNat = 3) ∧
    (r.rx = false ↔ r.cy = r.cz ∧ r.cx ≠ r.cy) ∧
    (r.ry = false ↔ r.cx = r.cz ∧ r.cy ≠ r.cx) ∧
    (r.rz = false ↔ r.cx = r.cy ∧ r.cz ≠ r.cx)

-- ---------------------------------------------------------------- rotation

/-- R111 to R114, for every tap set: every bit moves one index up, and the feedback bit enters at index 0. -/
def Obligations.RotationMovesBitsOneIndexUp : Prop :=
  ∀ p : Params,
    (∀ x : BitVec 6, bit (rotX p x) 0 = feedback p.tapsX x ∧ ∀ i, i < 5 → bit (rotX p x) (i + 1) = bit x i) ∧
    (∀ y : BitVec 8, bit (rotY p y) 0 = feedback p.tapsY y ∧ ∀ i, i < 7 → bit (rotY p y) (i + 1) = bit y i) ∧
    (∀ z : BitVec 9, bit (rotZ p z) 0 = feedback p.tapsZ z ∧ ∀ i, i < 8 → bit (rotZ p z) (i + 1) = bit z i)

/-- R110, for every tap set: the feedback bit is the exclusive or (the parity) of the tap bits, 0 for the all-zero
register. -/
def Obligations.FeedbackIsTheParityOfTheTapBits : Prop :=
  ∀ (n : Nat) (taps : List Nat),
    (∀ r : BitVec n, feedback taps r = decide ((taps.filter (fun i => r.getMsbD i)).length % 2 = 1)) ∧
    feedback taps (0#n) = false

/-- The default tap sets of R110 (general knowledge, PRESUMED, log 5): the bit that enters each register. -/
def Obligations.DefaultTapsFeedTheseBits : Prop :=
  engineParams.legal = true ∧
  (∀ x : BitVec 6, bit (rotX engineParams x) 0 = (bit x 2 ^^ bit x 4 ^^ bit x 5)) ∧
  (∀ y : BitVec 8, bit (rotY engineParams y) 0 = (bit y 6 ^^ bit y 7)) ∧
  (∀ z : BitVec 9, bit (rotZ engineParams z) 0 = (bit z 2 ^^ bit z 7 ^^ bit z 8))

/-- R118 and its reason: a tap set that holds the register's last index makes the rotation a bijection; the default sets do. -/
def Obligations.RotationWithLastTapIsABijection : Prop :=
  (∀ p : Params, p.legal = true →
    (5 ∈ p.tapsX → Function.Bijective (rotX p)) ∧
    (7 ∈ p.tapsY → Function.Bijective (rotY p)) ∧
    (8 ∈ p.tapsZ → Function.Bijective (rotZ p))) ∧
  Function.Bijective (rotX engineParams) ∧ Function.Bijective (rotY engineParams) ∧
  Function.Bijective (rotZ engineParams)

/-- R115, for every tap set: the selected registers rotate, all from the old state, and the others are left bit for bit
unchanged. -/
def Obligations.ClockRotatesOnlyTheSelectedRegisters : Prop :=
  ∀ (p : Params) (S : CipherState),
    (clock p S).2 = rotEn S ∧
    ((rotEn S).rx = true → (clock p S).1.x = rotX p S.x) ∧ ((rotEn S).rx = false → (clock p S).1.x = S.x) ∧
    ((rotEn S).ry = true → (clock p S).1.y = rotY p S.y) ∧ ((rotEn S).ry = false → (clock p S).1.y = S.y) ∧
    ((rotEn S).rz = true → (clock p S).1.z = rotZ p S.z) ∧ ((rotEn S).rz = false → (clock p S).1.z = S.z)

/-- R95, R132, for every tap set: from the all-zero state every stream comes out as it went in, and the state stays zero. -/
def Obligations.AllZeroKeyLeavesDataAsItIs : Prop :=
  ∀ (p : Params) (D : List Bit) (cap : Bit),
    let zero : CipherState := { x := 0, y := 0, z := 0 }
    (process p zero D cap).1 = D ∧ (runSteps p zero D).1 = zero

-- ---------------------------------------------------------------- the single step

/-- R125 to R128, for every tap set: the step's values, each from the state the rule names. -/
def Obligations.SingleStepFunction : Prop :=
  ∀ (p : Params) (S : CipherState) (d : Bit),
    let S' := (cipherStep p S d).1
    let r := (cipherStep p S d).2
    (r.cx, r.cy, r.cz) = (bit S.x 1, bit S.y 3, bit S.z 3) ∧
    r.m = maj r.cx r.cy r.cz ∧
    (r.rx, r.ry, r.rz) = (r.cx == r.m, r.cy == r.m, r.cz == r.m) ∧
    S'.x = (if r.rx then rotX p S.x else S.x) ∧ S'.y = (if r.ry then rotY p S.y else S.y) ∧
    S'.z = (if r.rz then rotZ p S.z else S.z) ∧
    r.pre = S ∧ r.post = S' ∧
    r.s = (bit S'.x 5 ^^ bit S'.y 7 ^^ bit S'.z 8) ∧ r.d = d ∧ r.o = (d ^^ r.s)

/-- R129, for every tap set: a record meets the field equations exactly when it is the record of a step; only `pre` and `d`
are free. -/
def Obligations.RecordIsFixedByStateAndDataBit : Prop :=
  ∀ (p : Params) (r : StepRecord), RecordOk p r ↔ r = (cipherStep p r.pre r.d).2

/-- R132: the data bit never reaches the next state; the records differ only in `d` and `o`. -/
def Obligations.DataBitNeverReachesTheState : Prop :=
  ∀ (p : Params) (S : CipherState),
    (cipherStep p S false).1 = (cipherStep p S true).1 ∧
    (cipherStep p S true).2 = { (cipherStep p S false).2 with d := true, o := !(cipherStep p S false).2.o }

/-- R132: the keystream bit depends on the state only through the last two positions of each register and the control
positions, never through the feedback of the same step: the tap sets may even differ. -/
def Obligations.KeystreamBitReadsNinePositions : Prop :=
  ∀ (p q : Params) (S T : CipherState) (d : Bit),
    bit S.x 1 = bit T.x 1 → bit S.x 4 = bit T.x 4 → bit S.x 5 = bit T.x 5 →
    bit S.y 3 = bit T.y 3 → bit S.y 6 = bit T.y 6 → bit S.y 7 = bit T.y 7 →
    bit S.z 3 = bit T.z 3 → bit S.z 7 = bit T.z 7 → bit S.z 8 = bit T.z 8 →
    (cipherStep p S d).2.s = (cipherStep q T d).2.s ∧ (cipherStep p S d).2.o = (cipherStep q T d).2.o

/-- R130: `STEP` without a key changes nothing; with a key it takes one step, keeps the record iff `CAP` = 1, and answers
the packed record. The whole next state is given, so this is its frame and its completion too. -/
def Obligations.StepCommand : Prop :=
  ∀ (s : State) (d : Bit),
    (s.loaded = false → exec (.step d) s = .next { s with outbox := s.outbox ++ [0xA000000000000000#64] }) ∧
    (∀ S, s.loaded = true → s.regs = some S →
      exec (.step d) s = .next
        { s with
          regs := some (cipherStep engineParams S d).1
          trace := if s.cap then s.trace.map (fun recs => recs ++ [(cipherStep engineParams S d).2]) else s.trace
          outbox := s.outbox ++ [(packRecord (cipherStep engineParams S d).2).zeroExtend 64] })

/-- The model's choice for states no run reaches (DESIGN CHOICE, log 8): with no CipherState, no INIT or no TRACE the
commands answer the error for the missing thing and change nothing. -/
def Obligations.MissingStateIsAnsweredByAnError : Prop :=
  ∀ s : State,
    (∀ d, s.regs = none → exec (.step d) s = .next { s with outbox := s.outbox ++ [errorWord .noKeyLoaded] }) ∧
    (s.loaded = true → s.cap = true → s.init = none →
      exec .rdinit s = .next { s with outbox := s.outbox ++ [errorWord .traceUnavailable] }) ∧
    (∀ idx, s.loaded = true → s.cap = true → s.trace = none →
      exec (.rdtrace idx) s = .next { s with outbox := s.outbox ++ [errorWord .traceUnavailable] })

/-- R30: the engine's store is unbounded and never refuses a `STEP`; for a finite `TRACE_DEPTH` a capturing `STEP` at
`TLEN = TRACE_DEPTH` is refused, and below it is not. -/
def Obligations.FiniteTraceStoreRefusesWhenFull : Prop :=
  (∀ (s : State) (d : Bit), ∃ t, exec (.step d) s = .next t) ∧
  (∀ (p : Params) (depth : Nat) (s : State) (S : CipherState) (recs : List StepRecord) (d : Bit),
    p.traceDepth = some depth → s.loaded = true → s.regs = some S → s.cap = true → s.trace = some recs →
    (recs.length = depth → stepCommand p d s = .refused .traceStoreFull) ∧
    (recs.length < depth → ∃ t, stepCommand p d s = .next t ∧ t.tlen = recs.length + 1))

-- ---------------------------------------------------------------- reading the trace and the status

/-- R147: `RDINIT`, its three answers; it writes no state and no flags. -/
def Obligations.RdinitCommand : Prop :=
  ∀ s : State,
    (s.loaded = false → exec .rdinit s = .next { s with outbox := s.outbox ++ [0xA000000000000000#64] }) ∧
    (s.loaded = true → s.cap = false → exec .rdinit s = .next { s with outbox := s.outbox ++ [0xC000000000000000#64] }) ∧
    (∀ S, s.loaded = true → s.cap = true → s.init = some S →
      exec .rdinit s = .next { s with outbox := s.outbox ++ [(st23 S).zeroExtend 64] })

/-- R148: `RDTRACE`, its four answers; it writes no state and no flags. -/
def Obligations.RdtraceCommand : Prop :=
  ∀ (s : State) (idx : Nat),
    (s.loaded = false → exec (.rdtrace idx) s = .next { s with outbox := s.outbox ++ [0xA000000000000000#64] }) ∧
    (s.loaded = true → s.cap = false →
      exec (.rdtrace idx) s = .next { s with outbox := s.outbox ++ [0xC000000000000000#64] }) ∧
    (∀ recs, s.loaded = true → s.cap = true → s.trace = some recs →
      (recs.length ≤ idx → exec (.rdtrace idx) s = .next { s with outbox := s.outbox ++ [0xC000000000000000#64] }) ∧
      (∀ h : idx < recs.length,
        exec (.rdtrace idx) s = .next { s with outbox := s.outbox ++ [(packRecord recs[idx]).zeroExtend 64] }))

/-- R37, R149: `RDSTAT` never fails, writes nothing, and shows `LOADED` at bit 30, `CAP` at bit 29 and the saturated
`TLEN` below, 0 when there is no trace. -/
def Obligations.RdstatCommand : Prop :=
  ∀ s : State, ∃ r : BitVec 64,
    exec .rdstat s = .next { s with outbox := s.outbox ++ [r] } ∧
    r.extractLsb' 31 33 = 0#33 ∧ r.getLsbD 30 = s.loaded ∧ r.getLsbD 29 = s.cap ∧
    (s.loaded = true → s.cap = true → ∀ recs, s.trace = some recs →
      (r.extractLsb' 0 29).toNat = min recs.length (2 ^ 29 - 1)) ∧
    (s.loaded = false ∨ s.cap = false ∨ s.trace = none → r.extractLsb' 0 29 = 0#29)

/-- R29: who writes the trace and how. Records are never changed and never removed except by the discard of the whole
trace: by a successful `LOADKEY` and by reset. -/
def Obligations.TraceOnlyGrowsWithinASession : Prop :=
  (∀ (i : Instr) (s t : State), exec i s = .next t →
    (∀ cap key, i = .loadkey cap 23 key →
      t.trace = (if cap then some [] else none) ∧ t.init = (if cap then t.regs else none)) ∧
    (startsSession i = false → t.init = s.init) ∧
    (∀ d S, i = .step d → s.loaded = true → s.regs = some S → s.cap = true →
      t.trace = s.trace.map (fun recs => recs ++ [(cipherStep engineParams S d).2])) ∧
    (∀ d, i = .step d → s.cap = false ∨ s.loaded = false → t.trace = s.trace) ∧
    (startsSession i = false → (∀ d, i ≠ .step d) → t.trace = s.trace)) ∧
  (∀ (s : State) (rest : List HostEvent), s.inbox = .reset :: rest →
    ∃ t, step s = .next t ∧ t.init = none ∧ t.trace = none)

/-- R45, R130, R148: the record that a capturing `STEP` keeps is read back, by its step number, as the very word `STEP`
answered. -/
def Obligations.RecordReadBackIsTheStepsAnswer : Prop :=
  ∀ (s t : State) (d : Bit), Inv engineParams s → s.cap = true → exec (.step d) s = .next t →
    ∃ (u : State) (r : BitVec 64), t.outbox = s.outbox ++ [r] ∧
      exec (.rdtrace s.tlen) t = .next u ∧ u.outbox = t.outbox ++ [r]

/-- R23: who writes the registers, for all commands at once: only `LOADKEY` and `STEP`; `STEP` leaves a register that does
not rotate bit for bit unchanged and rotates the others; only `LOADKEY` writes `LOADED` and `CAP`. -/
def Obligations.OnlyLoadkeyAndStepWriteTheRegisters : Prop :=
  ∀ (i : Instr) (s t : State), exec i s = .next t →
    t.inbox = s.inbox ∧
    (∀ cap key, i = .loadkey cap 23 key → ∃ S, loadKey (unpackKey key) = .ok S ∧ t.regs = some S) ∧
    (startsSession i = false → t.loaded = s.loaded ∧ t.cap = s.cap) ∧
    (startsSession i = false → (∀ d, i ≠ .step d) → t.sameEngine s) ∧
    (∀ d S, i = .step d → s.loaded = true → s.regs = some S →
      ∃ S', t.regs = some S' ∧
        S'.x = (if (rotEn S).rx then rotX engineParams S.x else S.x) ∧
        S'.y = (if (rotEn S).ry then rotY engineParams S.y else S.y) ∧
        S'.z = (if (rotEn S).rz then rotZ engineParams S.z else S.z))

-- ---------------------------------------------------------------- the port, errors and reset

/-- First clause, R48 (with `inbox` for the host's inputs, log 1): one step is one command, and the decoded command runs on
the state with that input taken. Second clause: the model's own port convention, which no rule of the spec states (DESIGN
CHOICE, logs 1 and 15): `withFetchWord` and `tableWord` put a word at the head of the host's inputs, so the next step runs it. -/
def Obligations.StepRunsTheDecodedCommand : Prop :=
  (∀ (s : State) (w : Word) (rest : List HostEvent) (i : Instr),
    s.inbox = .command w :: rest → decode w = .ok i → step s = exec i { s with inbox := rest }) ∧
  (∀ (s : State) (nbits w : Nat) (i : Instr),
    decodeTableWord nbits w = some i → step (s.withFetchWord nbits w) = exec i s)

/-- The model's port (DESIGN CHOICE, logs 3 and 9): with no input the engine waits; the reset input leaves the host's side of
the port as it is. -/
def Obligations.WaitingAndResetLeaveThePortAlone : Prop :=
  (∀ s : State, s.inbox = [] → step s = .next s) ∧
  (∀ (s : State) (rest : List HostEvent), s.inbox = .reset :: rest →
    ∃ t, step s = .next t ∧ t.inbox = rest ∧ t.outbox = s.outbox)

/-- R39, R201: the engine's state after the reset input, from every state. -/
def Obligations.ResetInputClearsTheEngine : Prop :=
  ∀ (s : State) (rest : List HostEvent), s.inbox = .reset :: rest →
    ∃ t, step s = .next t ∧ t.loaded = false ∧ t.cap = false ∧ t.regs = none ∧ t.init = none ∧ t.trace = none ∧
      t.tlen = 0

/-- R202: what the commands answer after reset, until the first successful `LOADKEY`; none of them changes the engine. -/
def Obligations.AnswersAfterReset : Prop :=
  ∀ s : State, s.sameEngine State.reset →
    exec .rdstat s = .next { s with outbox := s.outbox ++ [0#64] } ∧
    (∀ d, exec (.step d) s = .next { s with outbox := s.outbox ++ [0xA000000000000000#64] }) ∧
    exec .rdinit s = .next { s with outbox := s.outbox ++ [0xA000000000000000#64] } ∧
    (∀ idx, exec (.rdtrace idx) s = .next { s with outbox := s.outbox ++ [0xA000000000000000#64] }) ∧
    (∀ cap key, ∃ t, exec (.loadkey cap 23 key) s = .next t ∧ t.loaded = true ∧ t.cap = cap)

/-- R69: every command word, legal or not, is answered by exactly one word; bits 60:56 are 0, and the payload is 0 when the
status is not 0. -/
def Obligations.EveryCommandIsAnsweredByOneWord : Prop :=
  ∀ (s : State) (w : Word) (rest : List HostEvent), s.inbox = .command w :: rest →
    ∃ (t : State) (r : BitVec 64), step s = .next t ∧ t.inbox = rest ∧ t.outbox = s.outbox ++ [r] ∧
      r.extractLsb' 56 5 = 0#5 ∧ (r.extractLsb' 61 3 ≠ 0#3 → r.extractLsb' 0 56 = 0#56)

/-- R70: the numbers of the status codes; the status of the answer tells the cause; codes 2, 3 and 4 are never sent. -/
def Obligations.StatusCodeTellsTheCause : Prop :=
  [errorCode .invalidKeyLength, errorCode .invalidBitValue, errorCode .invalidDataLength, errorCode .invalidCharacter,
    errorCode .noKeyLoaded, errorCode .traceUnavailable, errorCode .illegalCommand]
    = [1#3, 2#3, 3#3, 4#3, 5#3, 6#3, 7#3] ∧
  ∀ (s : State) (w : Word) (rest : List HostEvent), Inv engineParams s → s.inbox = .command w :: rest →
    ∃ (t : State) (r : BitVec 64), step s = .next t ∧ t.outbox = s.outbox ++ [r] ∧
      (r.extractLsb' 61 3 = 1#3 ↔ ∃ cap klen key, decode w = .ok (.loadkey cap klen key) ∧ klen ≠ 23) ∧
      r.extractLsb' 61 3 ≠ 2#3 ∧ r.extractLsb' 61 3 ≠ 3#3 ∧ r.extractLsb' 61 3 ≠ 4#3 ∧
      (r.extractLsb' 61 3 = 5#3 ↔ s.loaded = false ∧
        ((∃ d, decode w = .ok (.step d)) ∨ decode w = .ok .rdinit ∨ ∃ idx, decode w = .ok (.rdtrace idx))) ∧
      (r.extractLsb' 61 3 = 6#3 ↔ s.loaded = true ∧
        ((decode w = .ok .rdinit ∧ s.cap = false) ∨
          ∃ idx, decode w = .ok (.rdtrace idx) ∧ (s.cap = false ∨ s.tlen ≤ idx))) ∧
      (r.extractLsb' 61 3 = 7#3 ↔ ∃ e, decode w = .error e)

/-- R173: a command answered with an error writes no register, flag, INIT or TRACE, and the answer is
`respond(code(E), 0)`. -/
def Obligations.FailedCommandChangesNothing : Prop :=
  ∀ (s t : State) (w : Word) (rest : List HostEvent) (r : BitVec 64),
    s.inbox = .command w :: rest → step s = .next t → t.outbox = s.outbox ++ [r] → r.extractLsb' 61 3 ≠ 0#3 →
    t = { s with inbox := rest, outbox := s.outbox ++ [r] } ∧ ∃ e, r = respondWord (errorCode e) 0#56

/-- R174: after a failed command the next input is treated exactly as if the failed one had never been issued. -/
def Obligations.FailedCommandIsForgotten : Prop :=
  ∀ (s t : State) (w : Word) (rest : List HostEvent) (r : BitVec 64),
    s.inbox = .command w :: rest → step s = .next t → t.outbox = s.outbox ++ [r] → r.extractLsb' 61 3 ≠ 0#3 →
    ∃ (u v : State) (answers : List RspWord),
      step { s with inbox := rest } = .next u ∧ step t = .next v ∧
      u.sameEngine v ∧ u.inbox = v.inbox ∧
      u.outbox = s.outbox ++ answers ∧ v.outbox = s.outbox ++ r :: answers

/-- R33, R145: what a step does depends on the engine's state and the input alone, never on the answers given before. -/
def Obligations.StepNeverReadsEarlierAnswers : Prop :=
  ∀ s t : State, s.sameEngine t → s.inbox = t.inbox →
    ∃ (u v : State) (answers : List RspWord),
      step s = .next u ∧ step t = .next v ∧ u.sameEngine v ∧ u.inbox = v.inbox ∧
      u.outbox = s.outbox ++ answers ∧ v.outbox = t.outbox ++ answers

/-- R179: no state is fatal. Every step of every state answers a next state, and a `LOADKEY` with `klen` = 23 starts the
same clean session from any two states. -/
def Obligations.NoStateIsFatal : Prop :=
  (∀ s : State, ∃ t, step s = .next t) ∧
  (∀ (s t : State) (cap : Bit) (key : BitVec 23), ∃ u v,
    exec (.loadkey cap 23 key) s = .next u ∧ exec (.loadkey cap 23 key) t = .next v ∧ u.sameEngine v ∧
    u.loaded = true ∧ (cap = true → u.trace = some []))

/-- R150: the engine never reads `TRACE`, `INIT` or `CAP` to compute anything: two states with one set of registers take one
`STEP` to one set of registers and one answer, and capture changes nothing of `LOADKEY`'s registers and answer. -/
def Obligations.CaptureNeverChangesOutputs : Prop :=
  (∀ (s t : State) (d : Bit), s.loaded = t.loaded → s.regs = t.regs →
    ∃ u v r, exec (.step d) s = .next u ∧ exec (.step d) t = .next v ∧ u.regs = v.regs ∧
      u.outbox = s.outbox ++ [r] ∧ v.outbox = t.outbox ++ [r]) ∧
  (∀ (s t : State) (klen : Nat) (key : BitVec 23), s.regs = t.regs →
    ∃ u v r, exec (.loadkey true klen key) s = .next u ∧ exec (.loadkey false klen key) t = .next v ∧ u.regs = v.regs ∧
      u.outbox = s.outbox ++ [r] ∧ v.outbox = t.outbox ++ [r])

/-- The invariant (R26, R27, R29, R31, R39) holds at reset. -/
def Obligations.InvariantHoldsAtReset : Prop := Inv engineParams State.reset

/-- R31: every step, on every input of the host, keeps the invariant. -/
def Obligations.EveryStepKeepsTheInvariant : Prop :=
  ∀ s t : State, Inv engineParams s → step s = .next t → Inv engineParams t

/-- R31, for every tap set and every trace depth: `STEP` keeps the invariant. -/
def Obligations.StepKeepsTheInvariantForAllTaps : Prop :=
  ∀ (p : Params) (s t : State) (d : Bit), Inv p s → stepCommand p d s = .next t → Inv p t

-- ---------------------------------------------------------------- streams and sessions

/-- R140, R142, for every tap set: `process` takes one step a data bit, each from the state the step before left, gives as
many output bits as data bits, and capture decides only whether the Trace is returned. -/
def Obligations.ProcessTakesOneStepPerDataBit : Prop :=
  ∀ (p : Params) (S0 : CipherState),
    process p S0 [] true = ([], some { init := S0, recs := [] }) ∧ process p S0 [] false = ([], none) ∧
    (∀ (D : List Bit) (cap : Bit), (process p S0 D cap).1.length = D.length) ∧
    (∀ D : List Bit, (process p S0 D false).2 = none ∧
      ∃ recs, process p S0 D true = (recs.map (fun r => r.o), some { init := S0, recs := recs }) ∧
        (process p S0 D false).1 = recs.map (fun r => r.o) ∧
        recs.length = D.length ∧
        (∀ i d, D[i]? = some d → ∃ pre, recs[i]? = some (cipherStep p pre d).2 ∧
          (i = 0 → pre = S0) ∧ (∀ r, 0 < i → recs[i - 1]? = some r → pre = r.post)))

/-- R143, for every tap set: the keystream does not depend on the data, and the output is data XOR keystream. -/
def Obligations.OutputIsDataXorKeystream : Prop :=
  ∀ (p : Params) (S0 : CipherState) (D : List Bit) (cap : Bit),
    (runSteps p S0 D).2.map (fun r => r.s) = keystream p S0 D.length ∧
    (process p S0 D cap).1 = List.zipWith (fun d s => d ^^ s) D (keystream p S0 D.length) ∧
    keystream p S0 D.length = (process p S0 (List.replicate D.length false) cap).1

/-- R144, for every tap set: processing the output under the same key gives the data back, so `decrypt` undoes
`encrypt`. -/
def Obligations.DecryptUndoesEncrypt : Prop :=
  (∀ (p : Params) (K : List Nat) (S0 : CipherState) (D : List Bit) (cap cap' : Bit), loadKey K = .ok S0 →
    (process p S0 (process p S0 D cap).1 cap').1 = D) ∧
  (∀ (p : Params) (K : List Nat) (D C : List Bit) (cap cap' : Bit) (tr : Option Trace),
    encrypt p K D cap = .ok (C, tr) → ∃ tr', decrypt p K C cap' = .ok (D, tr'))

/-- R152, for every tap set: a consistent trace is what `step` recomputes from INIT and the data bits. -/
def Obligations.TraceIsReconstructible : Prop :=
  ∀ (p : Params) (S0 S : CipherState) (recs : List StepRecord), TraceConsistent p S0 recs S →
    runSteps p S0 (recs.map (fun r => r.d)) = (S, recs)

/-- R146: a session is one `process` call. From any state, a successful `LOADKEY` and then any commands that start no new
session (reads and failed commands among them) leave the registers, answer the `STEP`s with the output bits, and, with
capture, hold the Trace of that call. -/
def Obligations.SessionIsOneProcessCall : Prop :=
  ∀ (s : State) (cap : Bit) (key : BitVec 23) (cmds : List Instr) (later : List HostEvent),
    (∀ i ∈ cmds, i.wellFormed = true ∧ startsSession i = false) →
    s.inbox = asInputs (.loadkey cap 23 key :: cmds) ++ later →
    ∃ (S0 : CipherState) (t : State) (r0 : RspWord) (rs : List RspWord),
      loadKey (unpackKey key) = .ok S0 ∧
      Host.Core.run core (cmds.length + 1) s = .next t ∧
      t.inbox = later ∧ t.outbox = s.outbox ++ r0 :: rs ∧ rs.length = cmds.length ∧
      stepOutputs cmds rs = (process engineParams S0 (stepData cmds) cap).1 ∧
      t.loaded = true ∧ t.cap = cap ∧
      t.regs = some (runSteps engineParams S0 (stepData cmds)).1 ∧
      (process engineParams S0 (stepData cmds) cap).2 =
        (match t.init, t.trace with
          | some S, some recs => some { init := S, recs := recs }
          | _, _ => none)

/-- R75: `PROCESS` with capture and then the trace reads: `RDINIT` answers the loaded state and `RDTRACE i` the record of
step i, for as many records as the 29-bit index can name. -/
def Obligations.ProcessThenTraceReadsGiveTheTrace : Prop :=
  ∀ (s : State) (key : BitVec 23) (D : List Bit),
    D.length ≤ 2 ^ 29 →
    s.inbox = asInputs (processCommands key D true ++ traceReadCommands D.length) →
    ∃ (S0 : CipherState) (t : State) (r0 : RspWord) (rs : List RspWord),
      loadKey (unpackKey key) = .ok S0 ∧
      Host.Core.run core (2 * D.length + 2) s = .next t ∧ t.inbox = [] ∧ rs.length = D.length ∧
      rs.map (fun r => r.getLsbD 0) = (process engineParams S0 D true).1 ∧
      t.outbox = s.outbox ++ r0 :: rs ++ (st23 S0).zeroExtend 64 ::
        (runSteps engineParams S0 D).2.map (fun rec => (packRecord rec).zeroExtend 64)

-- ---------------------------------------------------------------- the codec (interface only)

/-- R161 to R163: when each side of the codec fails, and with which error. -/
def Obligations.CodecErrors : Prop :=
  (∀ t : List Char, (∃ ch ∈ t, ch ∉ ['A', 'B', 'C', 'D', 'E', 'F', 'G', 'H']) ↔
    encodeText t = .error .invalidCharacter) ∧
  (∀ (t : List Char) (e : EngineError), encodeText t = .error e → e = .invalidCharacter) ∧
  (∀ b : List Bit, b.length % 3 ≠ 0 ↔ decodeBits b = .error .invalidDataLength) ∧
  (∀ (b : List Bit) (e : EngineError), decodeBits b = .error e → e = .invalidDataLength)

/-- R164: the codec's two sides undo each other. -/
def Obligations.CodecRoundTrip : Prop :=
  (∀ t : List Char, (∀ ch ∈ t, ch ∈ ['A', 'B', 'C', 'D', 'E', 'F', 'G', 'H']) →
    ∃ b, encodeText t = .ok b ∧ b.length = 3 * t.length ∧ decodeBits b = .ok t) ∧
  (∀ b : List Bit, b.length % 3 = 0 → ∃ t, decodeBits b = .ok t ∧ encodeText t = .ok b)

/-- R144, R164, R165, for every tap set: text encrypted twice under one key is the text. -/
def Obligations.TextEncryptedTwiceIsTheText : Prop :=
  ∀ (p : Params) (K : List Nat) (S0 : CipherState) (t : List Char) (cap cap' : Bit), loadKey K = .ok S0 →
    (∀ ch ∈ t, ch ∈ ['A', 'B', 'C', 'D', 'E', 'F', 'G', 'H']) →
    ∃ c, encryptText p K t cap = .ok c ∧ c.length = t.length ∧ encryptText p K c cap' = .ok t
end

