-- ==== Sys2Proof/Laws/Bits.lean ====
section
/-! SUPPORT. Lemmas on bit sequences in words: `bit`, `packFn`, `unpack`, the key operand, and rotation bit by bit. -/

namespace Sys2Proof.Machine

theorem bit_cons_zero {n : Nat} (b : Bit) (r : BitVec n) : bit (BitVec.cons b r) 0 = b := by
  simp [bit, BitVec.getMsbD, BitVec.getElem_cons]

theorem bit_cons_succ {n : Nat} (b : Bit) (r : BitVec n) (i : Nat) : bit (BitVec.cons b r) (i + 1) = bit r i := by
  by_cases h : i < n
  · have h1 : n + 1 - 1 - (i + 1) = n - 1 - i := by omega
    have h2 : ¬ (n - 1 - i = n) := by omega
    simp only [bit, BitVec.getMsbD, h1, BitVec.getLsbD_cons, h2, if_false, h, decide_true, Bool.true_and,
      show i + 1 < n + 1 by omega]
  · simp [bit, BitVec.getMsbD, h]

@[simp] theorem bit_packFn (n : Nat) (f : Nat → Bit) (i : Nat) :
    bit (packFn n f) i = (decide (i < n) && f i) := by
  induction n generalizing f i with
  | zero => simp [bit, packFn]
  | succ n ih =>
    cases i with
    | zero => simp [packFn, bit_cons_zero]
    | succ i => simp [packFn, bit_cons_succ, ih]

/-- Two registers with the same bits are equal. -/
theorem eq_of_bits {n : Nat} {a b : BitVec n} (h : ∀ i, i < n → bit a i = bit b i) : a = b :=
  BitVec.eq_of_getMsbD_eq fun i hi => h i hi

theorem bit_ge {n : Nat} (a : BitVec n) {i : Nat} (h : n ≤ i) : bit a i = false :=
  BitVec.getMsbD_of_ge a i h

@[simp] theorem unpack_length {n : Nat} (w : BitVec n) : (unpack w).length = n := by simp [unpack]

theorem unpack_getElem? {n : Nat} (w : BitVec n) {i : Nat} (h : i < n) : (unpack w)[i]? = some (bit w i) := by
  simp [unpack, h]

@[simp] theorem unpackKey_length (key : BitVec 23) : (unpackKey key).length = 23 := by simp [unpackKey]

theorem unpackKey_getElem? (key : BitVec 23) {i : Nat} (h : i < 23) :
    (unpackKey key)[i]? = some (symbol (bit key i)) := by
  simp [unpackKey, unpack_getElem? key h]

/-- Every symbol of a key operand is a bit (R67). -/
theorem unpackKey_symbol (key : BitVec 23) : ∀ a ∈ unpackKey key, a ≤ 1 := by
  intro a ha
  obtain ⟨b, -, rfl⟩ := List.mem_map.1 ha
  cases b <;> simp [symbol]

/-- `load_key` on a key of 23 bits (R90). -/
theorem loadKey_of_valid {k : List Nat} (hl : k.length = 23) (hb : ∀ a ∈ k, a ≤ 1) : loadKey k = .ok (splitKey k) := by
  have h : k.any (fun a => decide (1 < a)) = false := by
    simp only [List.any_eq_false, decide_eq_true_eq]
    intro a ha; have := hb a ha; omega
  simp [loadKey, keyLen, hl, h]

/-- The CipherState that a key operand loads, bit by bit (R91). -/
theorem splitKey_unpackKey_bits (key : BitVec 23) :
    (∀ i, i < 6 → bit (splitKey (unpackKey key)).x i = bit key i) ∧
    (∀ i, i < 8 → bit (splitKey (unpackKey key)).y i = bit key (6 + i)) ∧
    (∀ i, i < 9 → bit (splitKey (unpackKey key)).z i = bit key (14 + i)) := by
  have sym : ∀ b : Bit, (symbol b == 1) = b := by decide
  have get : ∀ j, j < 23 → ((unpackKey key).getD j 0 == 1) = bit key j := fun j hj => by
    simp [List.getD, unpackKey_getElem? key hj, sym]
  refine ⟨fun i hi => ?_, fun i hi => ?_, fun i hi => ?_⟩ <;> simp only [splitKey, bit_packFn, hi, decide_true, Bool.true_and]
  · exact get i (by omega)
  · exact get (6 + i) (by omega)
  · exact get (14 + i) (by omega)

/-- Masking a word built of parts masks each part. -/
theorem append_and {n m : Nat} (a b : BitVec n) (c d : BitVec m) : (a ++ c) &&& (b ++ d) = (a &&& b) ++ (c &&& d) := by
  apply BitVec.eq_of_getLsbD_eq
  intro j hj
  simp only [BitVec.getLsbD_and, BitVec.getLsbD_append]
  split <;> rfl

/-- Rotation, bit by bit (R111 to R114). -/
theorem bit_rotate_zero {n : Nat} (taps : List Nat) (r : BitVec (n + 1)) :
    bit (rotate taps r) 0 = feedback taps r := by simp [rotate]

theorem bit_rotate_succ {n : Nat} (taps : List Nat) (r : BitVec n) (i : Nat) (h : i + 1 < n) :
    bit (rotate taps r) (i + 1) = bit r i := by simp [rotate, h]

end Sys2Proof.Machine
end

