-- ==== Sys2Proof/Laws/State.lean ====
section
/-! SUPPORT. One lemma per field per update of the state, so that no proof unfolds an update. -/

namespace Sys2Proof.Machine

@[simp] theorem State.withInbox_loaded (s : State) (rest : List HostEvent) : (s.withInbox rest).loaded = s.loaded := rfl
@[simp] theorem State.withInbox_cap (s : State) (rest : List HostEvent) : (s.withInbox rest).cap = s.cap := rfl
@[simp] theorem State.withInbox_regs (s : State) (rest : List HostEvent) : (s.withInbox rest).regs = s.regs := rfl
@[simp] theorem State.withInbox_init (s : State) (rest : List HostEvent) : (s.withInbox rest).init = s.init := rfl
@[simp] theorem State.withInbox_trace (s : State) (rest : List HostEvent) : (s.withInbox rest).trace = s.trace := rfl
@[simp] theorem State.withInbox_inbox (s : State) (rest : List HostEvent) : (s.withInbox rest).inbox = rest := rfl
@[simp] theorem State.withInbox_outbox (s : State) (rest : List HostEvent) : (s.withInbox rest).outbox = s.outbox := rfl

@[simp] theorem State.answer_loaded (s : State) (r : RspWord) : (s.answer r).loaded = s.loaded := rfl
@[simp] theorem State.answer_cap (s : State) (r : RspWord) : (s.answer r).cap = s.cap := rfl
@[simp] theorem State.answer_regs (s : State) (r : RspWord) : (s.answer r).regs = s.regs := rfl
@[simp] theorem State.answer_init (s : State) (r : RspWord) : (s.answer r).init = s.init := rfl
@[simp] theorem State.answer_trace (s : State) (r : RspWord) : (s.answer r).trace = s.trace := rfl
@[simp] theorem State.answer_inbox (s : State) (r : RspWord) : (s.answer r).inbox = s.inbox := rfl
@[simp] theorem State.answer_outbox (s : State) (r : RspWord) : (s.answer r).outbox = s.outbox ++ [r] := rfl

@[simp] theorem State.respondOk_loaded (s : State) (v : Payload) : (s.respondOk v).loaded = s.loaded := rfl
@[simp] theorem State.respondOk_cap (s : State) (v : Payload) : (s.respondOk v).cap = s.cap := rfl
@[simp] theorem State.respondOk_regs (s : State) (v : Payload) : (s.respondOk v).regs = s.regs := rfl
@[simp] theorem State.respondOk_init (s : State) (v : Payload) : (s.respondOk v).init = s.init := rfl
@[simp] theorem State.respondOk_trace (s : State) (v : Payload) : (s.respondOk v).trace = s.trace := rfl
@[simp] theorem State.respondOk_inbox (s : State) (v : Payload) : (s.respondOk v).inbox = s.inbox := rfl
@[simp] theorem State.respondOk_outbox (s : State) (v : Payload) : (s.respondOk v).outbox = s.outbox ++ [respondWord okCode v] := rfl

@[simp] theorem State.raise_loaded (s : State) (e : EngineError) : (s.raise e).loaded = s.loaded := rfl
@[simp] theorem State.raise_cap (s : State) (e : EngineError) : (s.raise e).cap = s.cap := rfl
@[simp] theorem State.raise_regs (s : State) (e : EngineError) : (s.raise e).regs = s.regs := rfl
@[simp] theorem State.raise_init (s : State) (e : EngineError) : (s.raise e).init = s.init := rfl
@[simp] theorem State.raise_trace (s : State) (e : EngineError) : (s.raise e).trace = s.trace := rfl
@[simp] theorem State.raise_inbox (s : State) (e : EngineError) : (s.raise e).inbox = s.inbox := rfl
@[simp] theorem State.raise_outbox (s : State) (e : EngineError) : (s.raise e).outbox = s.outbox ++ [errorWord e] := rfl

@[simp] theorem State.setRegs_loaded (s : State) (S : CipherState) : (s.setRegs S).loaded = s.loaded := rfl
@[simp] theorem State.setRegs_cap (s : State) (S : CipherState) : (s.setRegs S).cap = s.cap := rfl
@[simp] theorem State.setRegs_regs (s : State) (S : CipherState) : (s.setRegs S).regs = some S := rfl
@[simp] theorem State.setRegs_init (s : State) (S : CipherState) : (s.setRegs S).init = s.init := rfl
@[simp] theorem State.setRegs_trace (s : State) (S : CipherState) : (s.setRegs S).trace = s.trace := rfl
@[simp] theorem State.setRegs_inbox (s : State) (S : CipherState) : (s.setRegs S).inbox = s.inbox := rfl
@[simp] theorem State.setRegs_outbox (s : State) (S : CipherState) : (s.setRegs S).outbox = s.outbox := rfl

@[simp] theorem State.beginSession_loaded (s : State) (c : Bit) (S : CipherState) : (s.beginSession c S).loaded = true := rfl
@[simp] theorem State.beginSession_cap (s : State) (c : Bit) (S : CipherState) : (s.beginSession c S).cap = c := rfl
@[simp] theorem State.beginSession_regs (s : State) (c : Bit) (S : CipherState) : (s.beginSession c S).regs = some S := rfl
@[simp] theorem State.beginSession_init (s : State) (c : Bit) (S : CipherState) : (s.beginSession c S).init = if c then some S else none := rfl
@[simp] theorem State.beginSession_trace (s : State) (c : Bit) (S : CipherState) : (s.beginSession c S).trace = if c then some [] else none := rfl
@[simp] theorem State.beginSession_inbox (s : State) (c : Bit) (S : CipherState) : (s.beginSession c S).inbox = s.inbox := rfl
@[simp] theorem State.beginSession_outbox (s : State) (c : Bit) (S : CipherState) : (s.beginSession c S).outbox = s.outbox := rfl

@[simp] theorem State.traceAppend_loaded (s : State) (rec : StepRecord) : (s.traceAppend rec).loaded = s.loaded := rfl
@[simp] theorem State.traceAppend_cap (s : State) (rec : StepRecord) : (s.traceAppend rec).cap = s.cap := rfl
@[simp] theorem State.traceAppend_regs (s : State) (rec : StepRecord) : (s.traceAppend rec).regs = s.regs := rfl
@[simp] theorem State.traceAppend_init (s : State) (rec : StepRecord) : (s.traceAppend rec).init = s.init := rfl
@[simp] theorem State.traceAppend_trace (s : State) (rec : StepRecord) : (s.traceAppend rec).trace = s.trace.map (fun recs => recs ++ [rec]) := rfl
@[simp] theorem State.traceAppend_inbox (s : State) (rec : StepRecord) : (s.traceAppend rec).inbox = s.inbox := rfl
@[simp] theorem State.traceAppend_outbox (s : State) (rec : StepRecord) : (s.traceAppend rec).outbox = s.outbox := rfl

@[simp] theorem State.resetEngine_loaded (s : State) : (s.resetEngine).loaded = false := rfl
@[simp] theorem State.resetEngine_cap (s : State) : (s.resetEngine).cap = false := rfl
@[simp] theorem State.resetEngine_regs (s : State) : (s.resetEngine).regs = none := rfl
@[simp] theorem State.resetEngine_init (s : State) : (s.resetEngine).init = none := rfl
@[simp] theorem State.resetEngine_trace (s : State) : (s.resetEngine).trace = none := rfl
@[simp] theorem State.resetEngine_inbox (s : State) : (s.resetEngine).inbox = s.inbox := rfl
@[simp] theorem State.resetEngine_outbox (s : State) : (s.resetEngine).outbox = s.outbox := rfl

@[simp] theorem State.withCommand_loaded (s : State) (w : Word) : (s.withCommand w).loaded = s.loaded := rfl
@[simp] theorem State.withCommand_cap (s : State) (w : Word) : (s.withCommand w).cap = s.cap := rfl
@[simp] theorem State.withCommand_regs (s : State) (w : Word) : (s.withCommand w).regs = s.regs := rfl
@[simp] theorem State.withCommand_init (s : State) (w : Word) : (s.withCommand w).init = s.init := rfl
@[simp] theorem State.withCommand_trace (s : State) (w : Word) : (s.withCommand w).trace = s.trace := rfl
@[simp] theorem State.withCommand_inbox (s : State) (w : Word) : (s.withCommand w).inbox = .command w :: s.inbox := rfl
@[simp] theorem State.withCommand_outbox (s : State) (w : Word) : (s.withCommand w).outbox = s.outbox := rfl

/-- What a successful `STEP` leaves, field by field (R130). -/
@[simp] theorem State.afterStep_loaded (p : Params) (S : CipherState) (d : Bit) (s : State) :
    (s.afterStep p S d).loaded = s.loaded := by
  unfold State.afterStep; cases h : s.cap <;> simp
@[simp] theorem State.afterStep_cap (p : Params) (S : CipherState) (d : Bit) (s : State) :
    (s.afterStep p S d).cap = s.cap := by
  unfold State.afterStep; cases h : s.cap <;> simp [h]
@[simp] theorem State.afterStep_regs (p : Params) (S : CipherState) (d : Bit) (s : State) :
    (s.afterStep p S d).regs = some (cipherStep p S d).1 := by
  unfold State.afterStep; cases h : s.cap <;> simp
@[simp] theorem State.afterStep_init (p : Params) (S : CipherState) (d : Bit) (s : State) :
    (s.afterStep p S d).init = s.init := by
  unfold State.afterStep; cases h : s.cap <;> simp
@[simp] theorem State.afterStep_trace (p : Params) (S : CipherState) (d : Bit) (s : State) :
    (s.afterStep p S d).trace = if s.cap then s.trace.map (fun recs => recs ++ [(cipherStep p S d).2]) else s.trace := by
  unfold State.afterStep; cases h : s.cap <;> simp
@[simp] theorem State.afterStep_inbox (p : Params) (S : CipherState) (d : Bit) (s : State) :
    (s.afterStep p S d).inbox = s.inbox := by
  unfold State.afterStep; cases h : s.cap <;> simp
@[simp] theorem State.afterStep_outbox (p : Params) (S : CipherState) (d : Bit) (s : State) :
    (s.afterStep p S d).outbox = s.outbox ++ [respondWord okCode (packRecord (cipherStep p S d).2)] := by
  unfold State.afterStep; cases h : s.cap <;> simp

/-- Two states with the same fields are the same state. -/
theorem State.ext_fields {s t : State} (h1 : s.loaded = t.loaded) (h2 : s.cap = t.cap) (h3 : s.regs = t.regs)
    (h4 : s.init = t.init) (h5 : s.trace = t.trace) (h6 : s.inbox = t.inbox) (h7 : s.outbox = t.outbox) : s = t := by
  cases s; cases t; simp_all

end Sys2Proof.Machine
end

