-- ==== Sys2Proof/Laws/Ops.lean ====
section
/-! SUPPORT. What each meaning and the step can do, said once (inversion lemmas), and small facts on response words. -/

namespace Sys2Proof.Machine

/-- A response word bit by bit (R69): payload, then zeros, then status. -/
theorem respondWord_getLsbD (c : BitVec 3) (v : Payload) (i : Nat) :
    (respondWord c v).getLsbD i = if i < 56 then v.getLsbD i else if i < 61 then false else c.getLsbD (i - 61) := by
  have h1 : (respondWord c v).getLsbD i = if i < 56 then v.getLsbD i else (c ++ 0#5).getLsbD (i - 56) :=
    BitVec.getLsbD_append
  have h2 : (c ++ 0#5).getLsbD (i - 56) = if i - 56 < 5 then (0#5).getLsbD (i - 56) else c.getLsbD (i - 56 - 5) :=
    BitVec.getLsbD_append
  rw [h1, h2]
  by_cases a : i < 56
  · simp only [a, if_true]
  · by_cases b : i < 61
    · simp [a, b, show i - 56 < 5 by omega]
    · simp [a, b, show ¬ (i - 56 < 5) by omega, show i - 56 - 5 = i - 61 by omega]

@[simp] theorem rspStatus_respondWord (c : BitVec 3) (v : Payload) : rspStatus (respondWord c v) = c := by
  apply BitVec.eq_of_getLsbD_eq
  intro i hi
  simp only [rspStatus, BitVec.getLsbD_extractLsb', respondWord_getLsbD]
  simp [hi, show ¬ (61 + i < 56) by omega, show ¬ (61 + i < 61) by omega]

@[simp] theorem rspPayload_respondWord (c : BitVec 3) (v : Payload) : rspPayload (respondWord c v) = v := by
  apply BitVec.eq_of_getLsbD_eq
  intro i hi
  simp only [rspPayload, BitVec.getLsbD_extractLsb', respondWord_getLsbD]
  simp [hi]

/-- An `OK` answer is its payload, zero-extended (R69, R70). -/
theorem respondWord_ok (v : Payload) : respondWord okCode v = v.zeroExtend 64 := by
  apply BitVec.eq_of_getLsbD_eq
  intro i hi
  simp only [respondWord_getLsbD, BitVec.truncate_eq_setWidth, BitVec.getLsbD_setWidth, okCode]
  by_cases a : i < 56
  · simp [a, hi]
  · simp [a, hi, BitVec.getLsbD_of_ge v i (by omega)]

theorem errorCode_ne_ok (e : EngineError) : errorCode e ≠ okCode := by cases e <;> decide

/-- Everything `LOADKEY` can do (R93). -/
theorem execLoadkey_eq (cap : Bit) (klen : Nat) (key : BitVec 23) (s : State) :
    execLoadkey cap klen key s =
      if klen = 23 then
        .next ((s.beginSession cap (splitKey (unpackKey key))).respondOk
          ((st23 (splitKey (unpackKey key))).zeroExtend 56))
      else .next (s.raise .invalidKeyLength) := by
  unfold execLoadkey
  rw [loadKey_of_valid (unpackKey_length key) (unpackKey_symbol key)]
  by_cases h : klen = 23 <;> simp [keyLen, h]

/-- Everything `STEP` can do, for any parameters (R130, R30). -/
theorem stepCommand_cases (p : Params) (d : Bit) (s : State) :
    (∃ S, s.loaded = true ∧ s.regs = some S ∧ s.traceFull p = false ∧ stepCommand p d s = .next (s.afterStep p S d)) ∨
    (s.loaded = true ∧ s.regs ≠ none ∧ s.traceFull p = true ∧ stepCommand p d s = .refused .traceStoreFull) ∨
    ((s.loaded = false ∨ s.regs = none) ∧ stepCommand p d s = .next (s.raise .noKeyLoaded)) := by
  unfold stepCommand
  cases hl : s.loaded <;> cases hr : s.regs <;> cases hf : s.traceFull p <;> simp

/-- The engine's store is unbounded. -/
@[simp] theorem traceFull_engineParams (s : State) : s.traceFull engineParams = false := by
  simp [State.traceFull, engineParams]

/-- Everything `RDINIT` can do (R147, log 8). -/
theorem execRdinit_cases (s : State) :
    (s.loaded = false ∧ execRdinit s = .next (s.raise .noKeyLoaded)) ∨
    (s.loaded = true ∧ (s.cap = false ∨ s.init = none) ∧ execRdinit s = .next (s.raise .traceUnavailable)) ∨
    (∃ S, s.loaded = true ∧ s.cap = true ∧ s.init = some S ∧
      execRdinit s = .next (s.respondOk ((st23 S).zeroExtend 56))) := by
  unfold execRdinit
  cases hl : s.loaded <;> cases hc : s.cap <;> cases hi : s.init <;> simp

/-- Everything `RDTRACE` can do (R148, log 8). -/
theorem execRdtrace_cases (idx : Nat) (s : State) :
    (s.loaded = false ∧ execRdtrace idx s = .next (s.raise .noKeyLoaded)) ∨
    (s.loaded = true ∧ (s.cap = false ∨ s.traceRead idx = none) ∧
      execRdtrace idx s = .next (s.raise .traceUnavailable)) ∨
    (∃ rec, s.loaded = true ∧ s.cap = true ∧ s.traceRead idx = some rec ∧
      execRdtrace idx s = .next (s.respondOk (packRecord rec))) := by
  unfold execRdtrace
  cases hl : s.loaded <;> cases hc : s.cap <;> cases hi : s.traceRead idx <;> simp

/-- Everything a command can do, as one of three outcomes: it starts a session, takes a step, or only answers. -/
theorem exec_cases (i : Instr) (s : State) :
    (∃ cap key, i = .loadkey cap 23 key ∧
      exec i s = .next ((s.beginSession cap (splitKey (unpackKey key))).respondOk
        ((st23 (splitKey (unpackKey key))).zeroExtend 56))) ∨
    (∃ d S, i = .step d ∧ s.loaded = true ∧ s.regs = some S ∧ exec i s = .next (s.afterStep engineParams S d)) ∨
    (startsSession i = false ∧ (∀ d S, i = .step d → s.loaded = true → s.regs ≠ some S) ∧
      ((∃ e, exec i s = .next (s.raise e)) ∨
       ((∀ d, i ≠ .step d) ∧ ∃ v, exec i s = .next (s.respondOk v)))) := by
  cases i with
  | loadkey cap klen key =>
    by_cases h : klen = 23
    · subst h
      exact .inl ⟨cap, key, rfl, by simp [exec, execLoadkey_eq]⟩
    · exact .inr (.inr ⟨by simp [startsSession, keyLen, h], by simp, .inl ⟨_, by simp [exec, execLoadkey_eq, h]; rfl⟩⟩)
  | step d =>
    obtain ⟨S, hl, hr, -, h⟩ | ⟨-, -, h, -⟩ | ⟨hn, h⟩ := stepCommand_cases engineParams d s
    · exact .inr (.inl ⟨d, S, rfl, hl, hr, h⟩)
    · simp at h
    · refine .inr (.inr ⟨rfl, ?_, .inl ⟨_, h⟩⟩)
      rintro d S - hl hr
      simp [hl, hr] at hn
  | rdinit =>
    refine .inr (.inr ⟨rfl, by simp, ?_⟩)
    cases hl : s.loaded with
    | false => exact .inl ⟨.noKeyLoaded, by simp [exec, execRdinit, hl]⟩
    | true =>
      cases hc : s.cap with
      | false => exact .inl ⟨.traceUnavailable, by simp [exec, execRdinit, hl, hc]⟩
      | true =>
        cases hx : s.init with
        | none => exact .inl ⟨.traceUnavailable, by simp [exec, execRdinit, hl, hc, hx]⟩
        | some v => exact .inr ⟨by simp, _, by simp only [exec, execRdinit, hl, hc, hx, if_true]; rfl⟩
  | rdtrace idx =>
    refine .inr (.inr ⟨rfl, by simp, ?_⟩)
    cases hl : s.loaded with
    | false => exact .inl ⟨.noKeyLoaded, by simp [exec, execRdtrace, hl]⟩
    | true =>
      cases hc : s.cap with
      | false => exact .inl ⟨.traceUnavailable, by simp [exec, execRdtrace, hl, hc]⟩
      | true =>
        cases hx : s.traceRead idx with
        | none => exact .inl ⟨.traceUnavailable, by simp [exec, execRdtrace, hl, hc, hx]⟩
        | some v => exact .inr ⟨by simp, _, by simp only [exec, execRdtrace, hl, hc, hx, if_true]; rfl⟩
  | rdstat => exact .inr (.inr ⟨rfl, by simp, .inr ⟨by simp, _, rfl⟩⟩)

/-- Everything a step can do: wait, take the reset input, answer an illegal word, or run the decoded command. -/
theorem step_cases (s : State) :
    (s.inbox = [] ∧ step s = .next s) ∨
    (∃ rest, s.inbox = .reset :: rest ∧ step s = .next (s.withInbox rest).resetEngine) ∨
    (∃ w rest e, s.inbox = .command w :: rest ∧ decode w = .error e ∧
      step s = .next ((s.withInbox rest).raise .illegalCommand)) ∨
    (∃ w rest i, s.inbox = .command w :: rest ∧ decode w = .ok i ∧ step s = exec i (s.withInbox rest)) := by
  unfold step takeInput
  match h : s.inbox with
  | [] => exact .inl ⟨rfl, rfl⟩
  | .reset :: rest => exact .inr (.inl ⟨rest, rfl, rfl⟩)
  | .command w :: rest =>
    cases hd : decode w with
    | error e => exact .inr (.inr (.inl ⟨w, rest, e, rfl, hd, by simp [runWord, hd]⟩))
    | ok i => exact .inr (.inr (.inr ⟨w, rest, i, rfl, hd, by simp [runWord, hd]⟩))

/-- A run of one step more, from the state the first step answers. -/
theorem run_succ_of_step {s t : State} (k : Nat) (h : step s = .next t) :
    Host.Core.run core (k + 1) s = Host.Core.run core k t := by
  have hs : core.step s = .next t := h
  simp only [Host.Core.run]
  rw [hs]

/-- A run in two parts. -/
theorem run_add {a b : Nat} {s t : State} (h : Host.Core.run core a s = .next t) :
    Host.Core.run core (a + b) s = Host.Core.run core b t := by
  induction a generalizing s with
  | zero => cases h; simp
  | succ a ih =>
    rw [show a + 1 + b = (a + b) + 1 by omega]
    simp only [Host.Core.run] at h ⊢
    split at h
    · exact ih h
    · cases h
    · cases h

end Sys2Proof.Machine
end

