-- ==== Sys2Proof/Laws/PerInstr.lean ====
section
/-! SUPPORT. Laws about a command as syntax, one lemma per constructor: the word of a command is in the match set of its own
row of R65. -/

namespace Sys2Proof.Laws.EncodeMatchesRow

/-- The encoding of `i` meets `W & mask == match` of its own row (R65). -/
def Statement (i : Instr) : Prop := encode i &&& rowMask i = rowMatch i

theorem loadkey (cap : Bit) (klen : Nat) (key : BitVec 23) : Statement (.loadkey cap klen key) := by
  have hm : rowMask (.loadkey cap klen key) = (BitVec.allOnes 3 ++ 0#1 ++ 0#5 ++ 0#23 : BitVec 32) := by simp only [rowMask]; decide
  have hv : rowMatch (.loadkey cap klen key) = (0b001#3 ++ 0#1 ++ 0#5 ++ 0#23 : BitVec 32) := by simp only [rowMatch]; decide
  unfold Statement encode
  rw [hm, hv, Machine.append_and, Machine.append_and, Machine.append_and, BitVec.and_allOnes, BitVec.and_zero, BitVec.and_zero, BitVec.and_zero]

theorem step (d : Bit) : Statement (.step d) := by cases d <;> (unfold Statement; decide)

theorem rdinit : Statement .rdinit := by unfold Statement; decide

theorem rdtrace (idx : Nat) : Statement (.rdtrace idx) := by
  have hm : rowMask (.rdtrace idx) = (BitVec.allOnes 3 ++ 0#29 : BitVec 32) := by simp only [rowMask]; decide
  have hv : rowMatch (.rdtrace idx) = (0b100#3 ++ 0#29 : BitVec 32) := by simp only [rowMatch]; decide
  unfold Statement encode
  rw [hm, hv, Machine.append_and, BitVec.and_allOnes, BitVec.and_zero]

theorem rdstat : Statement .rdstat := by unfold Statement; decide

end Sys2Proof.Laws.EncodeMatchesRow
end

