-- ==== Sys2Proof/Tests/Slice0.lean ====
section
/-! SUPPORT. Small tests, each on one step or one function, with results from spec/95_test_vectors.md and the worked examples
of the rules; the checks of WellFormed; and, for each obligation with hypotheses, a witness that meets them. -/

namespace Sys2Proof.Machine

-- ---------------------------------------------------------------- small states

/-- The key of TA51 §8 (vector K1) and the CipherStates of its run (vector V1). -/
def keyK : BitVec 23 := 0b10010101001110100110000#23
def stateK : CipherState := { x := 0b100101#6, y := 0b01001110#8, z := 0b100110000#9 }
def stateK1 : CipherState := { x := 0b110010#6, y := 0b10100111#8, z := 0b100110000#9 }
def stateK2 : CipherState := { x := 0b111001#6, y := 0b10100111#8, z := 0b010011000#9 }

/-- The record of step 0 of vector V1, with data bit 1. -/
def recK : StepRecord :=
  { cx := false, cy := false, cz := true, m := false, rx := true, ry := true, rz := false
    pre := stateK, post := stateK1, s := true, d := true, o := false }

/-- A session freshly loaded with that key; `input` is what the host sends. -/
def fresh (cap : Bit) (input : List HostEvent) : State :=
  { State.reset with
    loaded := true, cap := cap, regs := some stateK
    init := if cap then some stateK else none
    trace := if cap then some [] else none
    inbox := input }

/-- The same session with capture, after its first step. -/
def afterOne (input : List HostEvent) : State :=
  { fresh true input with regs := some stateK1, trace := some [recK] }

/-- What a test looks at: the answers given and the registers, after one step. -/
def seen (o : Host.Outcome State Fault Refusal) : Option (List RspWord × Option CipherState) :=
  match o with
  | .next t => some (t.outbox, t.regs)
  | .fault _ => none
  | .refused _ => none

/-- What a test looks at: the flags and the trace store, after one step. -/
def seenTrace (o : Host.Outcome State Fault Refusal) : Option (Bit × Bit × Option CipherState × Option (List StepRecord)) :=
  match o with
  | .next t => some (t.loaded, t.cap, t.init, t.trace)
  | .fault _ => none
  | .refused _ => none

-- ---------------------------------------------------------------- well-formedness (R61, R64)

theorem test_klen_32_is_refused : Instr.wellFormed (.loadkey true 32 keyK) = false := by decide
theorem test_klen_31_is_accepted : Instr.wellFormed (.loadkey true 31 keyK) = true := by decide
theorem test_idx_2_29_is_refused : Instr.wellFormed (.rdtrace (2 ^ 29)) = false := by decide
theorem test_idx_max_is_accepted : Instr.wellFormed (.rdtrace (2 ^ 29 - 1)) = true := by decide

-- ---------------------------------------------------------------- decoding, words written out from R61 to R64

theorem test_decode_loadkey :
    decode 0b001_1_10111_10010101001110100110000#32 = .ok (.loadkey true 23 keyK) := by decide
theorem test_decode_loadkey_fields_apart :
    decode 0b001_0_00001_10000000000000000000001#32 = .ok (.loadkey false 1 0b10000000000000000000001#23) := by decide
theorem test_decode_step : decode 0b010_0000000000000000000000000000_1#32 = .ok (.step true) := by decide
theorem test_decode_rdinit : decode 0b011_00000000000000000000000000000#32 = .ok .rdinit := by decide
theorem test_decode_rdtrace : decode 0b100_10000000000000000000000000001#32 = .ok (.rdtrace 268435457) := by decide
theorem test_decode_rdstat : decode 0b101_00000000000000000000000000000#32 = .ok .rdstat := by decide
theorem test_decode_reserved_op : decode 0b110_00000000000000000000000000000#32 = .error .reservedOp := by decide
theorem test_decode_reserved_bit : decode 0b010_1000000000000000000000000000_0#32 = .error .reservedBits := by decide
/-- The word of R74's example. -/
theorem test_encode_loadkey : encode (.loadkey true 23 keyK) = 0x3BCA9D30#32 := by decide
theorem test_table_word : decodeTableWord 32 0x80000002 = some (.rdtrace 2) := by decide
theorem test_fetch_word_is_the_next_command :
    seen (step (State.reset.withFetchWord 32 0x40000001)) = some ([0xA000000000000000#64], none) := by decide

-- ---------------------------------------------------------------- the functions

/-- Vectors K1, K8, K9. -/
theorem test_load_key_splits : loadKey (unpackKey keyK) = .ok stateK := by decide
theorem test_load_key_bad_symbol : loadKey (List.replicate 22 1 ++ [2]) = .error .invalidBitValue := by decide
theorem test_load_key_length_first : loadKey (List.replicate 21 1 ++ [2]) = .error .invalidKeyLength := by decide
/-- Section 2.3: three rotations whose feedback differs. -/
theorem test_rotate_x : rotX engineParams 0b001000#6 = 0b100100#6 := by decide
theorem test_rotate_y : rotY engineParams 0b11111111#8 = 0b01111111#8 := by decide
theorem test_rotate_z : rotZ engineParams 0b001000011#9 = 0b100100001#9 := by decide
/-- Vector V1: the second step rotates X and Z and holds Y. -/
theorem test_second_step : (cipherStep engineParams stateK1 true).1 = stateK2 := by decide
/-- Vector V1: keystream 100, ciphertext 011. -/
theorem test_process : (process engineParams stateK [true, true, true] false).1 = [false, true, true] := by decide
theorem test_keystream : keystream engineParams stateK 3 = [true, false, false] := by decide
/-- R165: "H" encrypts to "D". -/
theorem test_text : encryptText engineParams (unpackKey keyK) ['H'] false = .ok ['D'] := by decide
theorem test_codec_character : encodeText ['A', 'a'] = .error .invalidCharacter := by decide
theorem test_codec_length : decodeBits [true, true] = .error .invalidDataLength := by decide

-- ---------------------------------------------------------------- the commands, one step each

/-- Program P1, command 1. -/
theorem test_loadkey_answer :
    seen (step { State.reset with inbox := [.command 0x3BCA9D30#32] }) = some ([0x00000000004A9D30#64], some stateK) := by
  decide
/-- Program P3, command 12: a failed reload leaves the session as it was. -/
theorem test_loadkey_bad_length_keeps_session :
    seenTrace (step (afterOne [.command 0x2C4A9D30#32])) = some (true, true, some stateK, some [recK]) := by decide
/-- Program P1, command 2. -/
theorem test_step_answer :
    seen (step (fresh true [.command 0x40000001#32])) = some ([0x002D2A74C32A7986#64], some stateK1) := by decide
theorem test_step_keeps_record :
    seenTrace (step (fresh true [.command 0x40000001#32])) = some (true, true, some stateK, some [recK]) := by decide
/-- Program P1, command 6; program P2, command 6. -/
theorem test_rdinit_answer :
    seen (step (afterOne [.command 0x60000000#32])) = some ([0x00000000004A9D30#64], some stateK1) := by decide
theorem test_rdinit_without_capture :
    seen (step (fresh false [.command 0x60000000#32])) = some ([0xC000000000000000#64], some stateK) := by decide
/-- Program P1, command 7; the index at `TLEN` (vector X7's case). -/
theorem test_rdtrace_answer :
    seen (step (afterOne [.command 0x80000000#32])) = some ([0x002D2A74C32A7986#64], some stateK1) := by decide
theorem test_rdtrace_at_tlen :
    seen (step (afterOne [.command 0x80000001#32])) = some ([0xC000000000000000#64], some stateK1) := by decide
/-- R149: one record; after `LOADKEY` without capture. -/
theorem test_rdstat_answer :
    seen (step (afterOne [.command 0xA0000000#32])) = some ([0x0000000060000001#64], some stateK1) := by decide
theorem test_rdstat_without_capture :
    seen (step (fresh false [.command 0xA0000000#32])) = some ([0x0000000040000000#64], some stateK) := by decide
/-- Vector X5: decode comes before `NoKeyLoaded`. -/
theorem test_illegal_before_no_key :
    seen (step { State.reset with inbox := [.command 0x40000002#32] }) = some ([0xE000000000000000#64], none) := by decide
theorem test_reset_input : step (afterOne [.reset]) = .next State.reset := by rfl

-- ---------------------------------------------------------------- assembler lines (R74) and pseudo-instructions (R75)

theorem test_assemble_loadkey :
    (assemble (['L', 'O', 'A', 'D', 'K', 'E', 'Y', ' '] ++
      ['1', '0', '0', '1', '0', '1', '0', '1', '0', '0', '1', '1', '1', '0', '1', '0', '0', '1', '1', '0', '0', '0', '0'] ++
      [' ', 'c', 'a', 'p', '=', '1'])).map encode = some 0x3BCA9D30#32 := by decide
theorem test_assemble_step : (assemble ['S', 'T', 'E', 'P', ' ', '1']).map encode = some 0x40000001#32 := by decide
theorem test_assemble_rdtrace :
    (assemble ['R', 'D', 'T', 'R', 'A', 'C', 'E', ' ', '1', '2']).map encode = some 0x8000000C#32 := by decide
theorem test_assemble_idx_too_large :
    assemble ['R', 'D', 'T', 'R', 'A', 'C', 'E', ' ', '5', '3', '6', '8', '7', '0', '9', '1', '2'] = none := by decide
theorem test_keystream_commands :
    (keystreamCommands keyK 2).map encode = [0x2BCA9D30#32, 0x40000000#32, 0x40000000#32] := by decide

-- ---------------------------------------------------------------- witnesses: the hypotheses of each obligation are met

/-- A session with one record meets the invariant. -/
theorem witness_invariant (input : List HostEvent) : Inv engineParams (afterOne input) := by
  constructor
  · rfl
  · intro _; rfl
  · rfl
  · rfl
  · intro S S0 recs h1 h2 h3
    cases h1; cases h2; cases h3
    constructor
    · intro r hr; cases hr; rfl
    · intro i r r' hr hr'; cases i <;> simp at hr hr'
    · intro r hr; cases hr; rfl
    · intro h; cases h
    · intro r hr
      simp only [List.mem_singleton] at hr
      subst hr
      constructor <;> decide

theorem witness_DecodeOfEncodeGivesTheCommand :
    Instr.wellFormed (.loadkey true 31 keyK) = true ∧ Instr.wellFormed (.rdtrace 536870911) = true := by decide
theorem witness_EncodeOfDecodeGivesTheWord : decode 0x9FFFFFFF#32 = .ok (.rdtrace 536870911) := by decide
theorem witness_DecodeFollowsMatchAndMask : (0xFFFFFFFF#32).extractLsb' 29 3 ∈ [0b000#3, 0b110#3, 0b111#3] := by decide
theorem witness_IllegalWordsAreExactlyThese :
    (fresh true [.command 0x60000001#32]).inbox = .command 0x60000001#32 :: [] ∧
    decode 0x60000001#32 = .error .reservedBits := ⟨rfl, by decide⟩
theorem witness_KeyOperandOfLoadkey :
    decode 0x3BCA9D30#32 = .ok (.loadkey true 23 keyK) ∧ (22 : Nat) < 23 ∧ (22 : Nat) ≠ 23 := by decide
theorem witness_OtherOperandsAreUnsignedFields :
    decode 0x3BCA9D30#32 = .ok (.loadkey true 23 keyK) ∧ decode 0x40000001#32 = .ok (.step true) ∧
    decode 0x9FFFFFFF#32 = .ok (.rdtrace 536870911) := by decide
theorem witness_StateWordLayout : (5 : Nat) < 6 ∧ (7 : Nat) < 8 ∧ (8 : Nat) < 9 := by decide
theorem witness_PackedRecordLayout : packRecord recK = packRecord recK := rfl
theorem witness_LoadKeyChecksThenSplits :
    (List.replicate 22 1 : List Nat).length ≠ 23 ∧
    ((List.replicate 22 1 ++ [2] : List Nat).length = 23 ∧ ∃ a ∈ (List.replicate 22 1 ++ [2] : List Nat), a ≠ 0 ∧ a ≠ 1) ∧
    ((unpackKey keyK).length = 23 ∧ ∀ a ∈ unpackKey keyK, a = 0 ∨ a = 1) := by decide
theorem witness_LoadKeyIsABijection : loadKey (unpackKey keyK) = .ok stateK := by decide
theorem witness_LoadkeyCommand : (0 : Nat) ≠ 23 ∧ (22 : Nat) ≠ 23 ∧ (24 : Nat) ≠ 23 := by decide
theorem witness_RotationMovesBitsOneIndexUp : (4 : Nat) < 5 ∧ (6 : Nat) < 7 ∧ (7 : Nat) < 8 := by decide
theorem witness_RotationWithLastTapIsABijection :
    engineParams.legal = true ∧ 5 ∈ engineParams.tapsX ∧ 7 ∈ engineParams.tapsY ∧ 8 ∈ engineParams.tapsZ := by decide
theorem witness_ClockRotatesOnlyTheSelectedRegisters :
    (rotEn stateK).rx = true ∧ (rotEn stateK).ry = true ∧ (rotEn stateK).rz = false ∧
    (rotEn stateK1).rx = true ∧ (rotEn stateK1).ry = false ∧ (rotEn stateK1).rz = true ∧
    (rotEn stateK2).rx = false := by decide
theorem witness_RecordIsFixedByStateAndDataBit : RecordOk engineParams recK := by constructor <;> decide
/-- Two different states that agree on the nine positions. -/
theorem witness_KeystreamBitReadsNinePositions :
    let T : CipherState := { stateK with x := 0b000101#6 }
    T ≠ stateK ∧
    bit stateK.x 1 = bit T.x 1 ∧ bit stateK.x 4 = bit T.x 4 ∧ bit stateK.x 5 = bit T.x 5 ∧
    bit stateK.y 3 = bit T.y 3 ∧ bit stateK.y 6 = bit T.y 6 ∧ bit stateK.y 7 = bit T.y 7 ∧
    bit stateK.z 3 = bit T.z 3 ∧ bit stateK.z 7 = bit T.z 7 ∧ bit stateK.z 8 = bit T.z 8 := by decide
theorem witness_StepCommand :
    State.reset.loaded = false ∧ (fresh true []).loaded = true ∧ (fresh true []).regs = some stateK := by decide
theorem witness_MissingStateIsAnsweredByAnError :
    State.reset.regs = none ∧
    (let s : State := { fresh true [] with init := none }
     s.loaded = true ∧ s.cap = true ∧ s.init = none) ∧
    (let s : State := { fresh true [] with trace := none }
     s.loaded = true ∧ s.cap = true ∧ s.trace = none) := by decide
theorem witness_FiniteTraceStoreRefusesWhenFull :
    (let p : Params := { engineParams with traceDepth := some 1 }
     p.traceDepth = some 1 ∧ (afterOne []).loaded = true ∧ (afterOne []).regs = some stateK1 ∧ (afterOne []).cap = true ∧
     (afterOne []).trace = some [recK] ∧ [recK].length = 1) ∧
    (let p : Params := { engineParams with traceDepth := some 2 }
     p.traceDepth = some 2 ∧ [recK].length < 2) := by decide
theorem witness_RdinitCommand :
    State.reset.loaded = false ∧ ((fresh false []).loaded = true ∧ (fresh false []).cap = false) ∧
    ((afterOne []).loaded = true ∧ (afterOne []).cap = true ∧ (afterOne []).init = some stateK) := by decide
theorem witness_RdtraceCommand :
    State.reset.loaded = false ∧ ((fresh false []).loaded = true ∧ (fresh false []).cap = false) ∧
    ((afterOne []).loaded = true ∧ (afterOne []).cap = true ∧ (afterOne []).trace = some [recK]) ∧
    [recK].length ≤ 1 ∧ 0 < [recK].length := by decide
theorem witness_RdstatCommand :
    ((afterOne []).loaded = true ∧ (afterOne []).cap = true ∧ (afterOne []).trace = some [recK]) ∧
    State.reset.loaded = false ∧ (fresh false []).cap = false ∧ State.reset.trace = none := by decide
theorem witness_TraceOnlyGrowsWithinASession :
    (∃ t, exec (.step true) (fresh true []) = .next t) ∧ (∃ t, exec (.step true) (fresh false []) = .next t) ∧
    (∃ t, exec (.step true) State.reset = .next t) ∧
    (∃ t, exec (.loadkey true 23 keyK) State.reset = .next t) ∧ (∃ t, exec .rdstat State.reset = .next t) ∧
    (startsSession .rdstat = false ∧ ∀ d, Instr.rdstat ≠ .step d) ∧ (fresh true [.reset]).inbox = .reset :: [] :=
  ⟨⟨_, rfl⟩, ⟨_, rfl⟩, ⟨_, rfl⟩, ⟨_, by simp only [exec, execLoadkey_eq, if_true]; rfl⟩, ⟨_, rfl⟩,
    ⟨rfl, by decide⟩, rfl⟩
theorem witness_RecordReadBackIsTheStepsAnswer :
    Inv engineParams (afterOne []) ∧ (afterOne []).cap = true ∧ ∃ t, exec (.step true) (afterOne []) = .next t :=
  ⟨witness_invariant [], rfl, _, rfl⟩
theorem witness_OnlyLoadkeyAndStepWriteTheRegisters :
    (∃ t, exec (.step true) (fresh true []) = .next t) ∧ (fresh true []).loaded = true ∧
    (fresh true []).regs = some stateK ∧ (∃ t, exec .rdinit (fresh true []) = .next t) ∧ startsSession .rdinit = false ∧
    (∃ t, exec (.loadkey true 23 keyK) (fresh true []) = .next t) :=
  ⟨⟨_, rfl⟩, rfl, rfl, ⟨_, rfl⟩, rfl, _, by simp only [exec, execLoadkey_eq, if_true]; rfl⟩
theorem witness_StepRunsTheDecodedCommand :
    ((fresh true [.command 0x40000001#32]).inbox = .command 0x40000001#32 :: [] ∧ decode 0x40000001#32 = .ok (.step true)) ∧
    decodeTableWord 32 0x40000001 = some (.step true) := ⟨⟨rfl, by decide⟩, by decide⟩
theorem witness_WaitingAndResetLeaveThePortAlone :
    State.reset.inbox = [] ∧ (afterOne [.reset]).inbox = .reset :: [] := ⟨rfl, rfl⟩
theorem witness_ResetInputClearsTheEngine : (afterOne [.reset]).inbox = .reset :: [] := rfl
theorem witness_AnswersAfterReset : State.reset.sameEngine State.reset := ⟨rfl, rfl, rfl, rfl, rfl⟩
theorem witness_EveryCommandIsAnsweredByOneWord :
    (afterOne [.command 0xA0000000#32]).inbox = .command 0xA0000000#32 :: [] := rfl
theorem witness_StatusCodeTellsTheCause :
    Inv engineParams (afterOne [.command 0x80000001#32]) ∧
    (afterOne [.command 0x80000001#32]).inbox = .command 0x80000001#32 :: [] := ⟨witness_invariant _, rfl⟩
/-- For FailedCommandChangesNothing and FailedCommandIsForgotten: `RDTRACE 1` with one record. -/
theorem witness_FailedCommandChangesNothing :
    (afterOne [.command 0x80000001#32]).inbox = .command 0x80000001#32 :: [] ∧
    step (afterOne [.command 0x80000001#32]) = .next ((afterOne []).answer 0xC000000000000000#64) ∧
    ((afterOne []).answer 0xC000000000000000#64).outbox
      = (afterOne [.command 0x80000001#32]).outbox ++ [0xC000000000000000#64] ∧
    (0xC000000000000000#64).extractLsb' 61 3 ≠ 0#3 := ⟨rfl, rfl, rfl, by decide⟩
theorem witness_FailedCommandIsForgotten :
    ∃ t, step (afterOne [.command 0x80000001#32]) = .next t ∧ t.outbox = [] ++ [0xC000000000000000#64] :=
  ⟨_, witness_FailedCommandChangesNothing.2.1, rfl⟩
theorem witness_StepNeverReadsEarlierAnswers :
    (afterOne []).sameEngine ((afterOne []).answer 0#64) ∧ (afterOne []).inbox = ((afterOne []).answer 0#64).inbox :=
  ⟨⟨rfl, rfl, rfl, rfl, rfl⟩, rfl⟩
/-- For NoStateIsFatal (`cap = true`) and CaptureNeverChangesOutputs: one state with capture, one without. -/
theorem witness_CaptureNeverChangesOutputs :
    (fresh true []).loaded = (fresh false []).loaded ∧ (fresh true []).regs = (fresh false []).regs ∧
    (fresh true []).cap ≠ (fresh false []).cap := by decide
theorem witness_EveryStepKeepsTheInvariant :
    Inv engineParams (afterOne [.command 0xA0000000#32]) ∧ ∃ t, step (afterOne [.command 0xA0000000#32]) = .next t :=
  ⟨witness_invariant _, _, rfl⟩
theorem witness_StepKeepsTheInvariantForAllTaps :
    Inv engineParams (afterOne []) ∧ ∃ t, stepCommand engineParams true (afterOne []) = .next t :=
  ⟨witness_invariant _, _, rfl⟩
theorem witness_ProcessTakesOneStepPerDataBit :
    ([true, false] : List Bit)[0]? = some true ∧ ([true, false] : List Bit)[1]? = some false := by decide
theorem witness_DecryptUndoesEncrypt :
    loadKey (unpackKey keyK) = .ok stateK ∧
    ∃ tr, encrypt engineParams (unpackKey keyK) [true, true, true] false = .ok ([false, true, true], tr) :=
  ⟨by decide, none, by decide⟩
theorem witness_TraceIsReconstructible : TraceConsistent engineParams stateK [recK] stateK1 :=
  (witness_invariant []).consistent _ _ _ rfl rfl rfl
theorem witness_SessionIsOneProcessCall :
    let cmds : List Instr := [.step true, .rdtrace 0, .loadkey false 22 0#23, .step false]
    (∀ i ∈ cmds, i.wellFormed = true ∧ startsSession i = false) ∧
    ({ State.reset with inbox := asInputs (.loadkey true 23 keyK :: cmds) } : State).inbox
      = asInputs (.loadkey true 23 keyK :: cmds) ++ [] := by
  refine ⟨?_, by simp⟩
  decide
theorem witness_ProcessThenTraceReadsGiveTheTrace :
    ([true, true, true] : List Bit).length ≤ 2 ^ 29 ∧
    ({ State.reset with inbox := asInputs (processCommands keyK [true, true, true] true ++ traceReadCommands 3) } : State).inbox
      = asInputs (processCommands keyK [true, true, true] true ++ traceReadCommands [true, true, true].length) := by
  exact ⟨by simp, rfl⟩
theorem witness_CodecErrors :
    encodeText ['Z'] = .error .invalidCharacter ∧ decodeBits [true] = .error .invalidDataLength := by decide
theorem witness_CodecRoundTrip :
    (∀ ch ∈ ['A', 'H'], ch ∈ ['A', 'B', 'C', 'D', 'E', 'F', 'G', 'H']) ∧ ([] : List Bit).length % 3 = 0 ∧
    ([true, true, false] : List Bit).length % 3 = 0 := ⟨by simp, rfl, rfl⟩
theorem witness_TextEncryptedTwiceIsTheText :
    loadKey (unpackKey keyK) = .ok stateK ∧ ∀ ch ∈ ['H'], ch ∈ ['A', 'B', 'C', 'D', 'E', 'F', 'G', 'H'] :=
  ⟨by decide, by simp⟩

end Sys2Proof.Machine
end

section
/-! PROOFS. The state invariant (10_state.md): who writes registers, flags and trace, what every step keeps, and that no
step reads the answers given before. -/

namespace Sys2Proof.Machine

-- ---------------------------------------------------------------- the record of a step

/-- The record of a step meets the field equations (R129). -/
theorem recordOk_cipherStep (p : Params) (S : CipherState) (d : Bit) : RecordOk p (cipherStep p S d).2 where
  control := rfl
  majority := rfl
  flagX := rfl
  flagY := rfl
  flagZ := rfl
  postX := rfl
  postY := rfl
  postZ := rfl
  keystreamBit := rfl
  outputBit := rfl

@[simp] theorem cipherStep_pre (p : Params) (S : CipherState) (d : Bit) : (cipherStep p S d).2.pre = S := rfl

@[simp] theorem cipherStep_post (p : Params) (S : CipherState) (d : Bit) :
    (cipherStep p S d).2.post = (cipherStep p S d).1 := rfl

-- ---------------------------------------------------------------- trace consistency

/-- A trace without records is consistent when the registers are the initial state (R31). -/
theorem traceConsistent_nil (p : Params) (S : CipherState) : TraceConsistent p S [] S where
  first := by simp
  chain := by simp
  last := by simp
  empty := fun _ => rfl
  records := by simp

/-- A consistent trace stays consistent when a correct record that starts at the present registers is appended, and the
registers move to its end (R31). -/
theorem TraceConsistent.append {p : Params} {S0 S : CipherState} {recs : List StepRecord}
    (hc : TraceConsistent p S0 recs S) {r : StepRecord} (hpre : r.pre = S) (hr : RecordOk p r) :
    TraceConsistent p S0 (recs ++ [r]) r.post where
  first := by
    cases recs with
    | nil => simpa [hpre] using hc.empty rfl
    | cons a as => simpa using hc.first a rfl
  chain := by
    intro i a b ha hb
    obtain hlt | heq : i + 1 < recs.length ∨ i + 1 = recs.length := by
      have hlen : i + 1 < (recs ++ [r]).length := (List.getElem?_eq_some_iff.mp hb).1
      rw [List.length_append, List.length_singleton] at hlen
      omega
    · rw [List.getElem?_append_left (by omega)] at ha hb
      exact hc.chain i a b ha hb
    · rw [List.getElem?_append_left (by omega)] at ha
      have hlast : S = a.post := hc.last a (by rwa [← heq])
      have hb : r = b := by simpa [heq] using hb
      rw [← hb, hpre, hlast]
  last := by simp
  empty := by simp
  records := by
    intro a ha
    obtain ha | rfl : a ∈ recs ∨ a = r := by simpa using ha
    · exact hc.records a ha
    · exact hr

-- ---------------------------------------------------------------- operations that leave the engine's own state

theorem State.sameEngine_withInbox (s : State) (rest : List HostEvent) : (s.withInbox rest).sameEngine s :=
  ⟨rfl, rfl, rfl, rfl, rfl⟩

theorem State.sameEngine_raise (s : State) (e : EngineError) : (s.raise e).sameEngine s := ⟨rfl, rfl, rfl, rfl, rfl⟩

theorem State.sameEngine_respondOk (s : State) (v : Payload) : (s.respondOk v).sameEngine s := ⟨rfl, rfl, rfl, rfl, rfl⟩

-- ---------------------------------------------------------------- the invariant and the state operations

/-- The invariant speaks of the engine's own state only. -/
theorem Inv.of_sameEngine {p : Params} {s t : State} (hs : Inv p s) (h : t.sameEngine s) : Inv p t := by
  obtain ⟨hl, hc, hr, hi, ht⟩ := h
  constructor
  · rw [hl, hr]; exact hs.loadedRegs
  · rw [hl, hc]; exact hs.capLoaded
  · rw [hc, hi]; exact hs.capInit
  · rw [hc, ht]; exact hs.capTrace
  · rw [hr, hi, ht]; exact hs.consistent

/-- The state after reset meets the invariant at any parameters (R31, R39). -/
theorem inv_reset (p : Params) : Inv p State.reset where
  loadedRegs := rfl
  capLoaded := by simp [State.reset]
  capInit := rfl
  capTrace := rfl
  consistent := by simp [State.reset]

/-- The reset input leaves the invariant (R201). -/
theorem inv_resetEngine (p : Params) (s : State) : Inv p s.resetEngine :=
  (inv_reset p).of_sameEngine ⟨rfl, rfl, rfl, rfl, rfl⟩

/-- A fresh session meets the invariant, whatever was before (R93). -/
theorem inv_beginSession (p : Params) (s : State) (cap : Bit) (S : CipherState) : Inv p (s.beginSession cap S) where
  loadedRegs := rfl
  capLoaded := fun _ => rfl
  capInit := by cases cap <;> rfl
  capTrace := by cases cap <;> rfl
  consistent := by
    intro S' S0 recs hr hi ht
    cases cap with
    | false => simp at hi
    | true =>
      cases hr; cases hi; cases ht
      exact traceConsistent_nil p S

/-- A successful `STEP` keeps the invariant: its record continues the trace (R31, R130). -/
theorem afterStep_keeps_inv {p : Params} {s : State} (hs : Inv p s) {S : CipherState} (hl : s.loaded = true)
    (hr : s.regs = some S) (d : Bit) : Inv p (s.afterStep p S d) where
  loadedRegs := by simp [hl]
  capLoaded := by simpa using hs.capLoaded
  capInit := by simpa using hs.capInit
  capTrace := by cases hc : s.cap <;> simpa [hc] using hs.capTrace
  consistent := by
    intro S' S0 recs' hr' hi ht
    have hi : s.init = some S0 := by simpa using hi
    have hc : s.cap = true := by simp [hs.capInit, hi]
    obtain ⟨recs, htr, rfl⟩ : ∃ recs, s.trace = some recs ∧ recs ++ [(cipherStep p S d).2] = recs' := by
      simpa [hc] using ht
    obtain rfl : (cipherStep p S d).1 = S' := by simpa using hr'
    exact (hs.consistent S S0 recs hr hi htr).append (cipherStep_pre p S d) (recordOk_cipherStep p S d)

-- ---------------------------------------------------------------- what a command and a step keep

@[simp] theorem startsSession_loadkey (cap : Bit) (key : BitVec 23) : startsSession (.loadkey cap 23 key) = true := rfl

/-- Everything a command that answers a next state can have done to the engine: it started a session, it took a step with a
key, or it left the engine's own state. -/
theorem exec_next_cases {i : Instr} {s t : State} (h : exec i s = .next t) :
    (∃ cap key, i = .loadkey cap 23 key ∧
      t = (s.beginSession cap (splitKey (unpackKey key))).respondOk ((st23 (splitKey (unpackKey key))).zeroExtend 56)) ∨
    (∃ d S, i = .step d ∧ s.loaded = true ∧ s.regs = some S ∧ t = s.afterStep engineParams S d) ∨
    (startsSession i = false ∧ (∀ d S, i = .step d → s.loaded = true → s.regs ≠ some S) ∧
      t.sameEngine s ∧ t.inbox = s.inbox) := by
  obtain ⟨cap, key, hi, hx⟩ | ⟨d, S, hi, hl, hr, hx⟩ | ⟨hi, hk, ⟨e, hx⟩ | ⟨-, v, hx⟩⟩ := exec_cases i s <;>
    cases h.symm.trans hx
  · exact .inl ⟨cap, key, hi, rfl⟩
  · exact .inr (.inl ⟨d, S, hi, hl, hr, rfl⟩)
  · exact .inr (.inr ⟨hi, hk, s.sameEngine_raise e, rfl⟩)
  · exact .inr (.inr ⟨hi, hk, s.sameEngine_respondOk v, rfl⟩)

/-- Every command keeps the invariant of the engine's parameters. -/
theorem exec_keeps_inv {i : Instr} {s t : State} (hs : Inv engineParams s) (h : exec i s = .next t) : Inv engineParams t := by
  obtain ⟨cap, key, -, rfl⟩ | ⟨d, S, -, hl, hr, rfl⟩ | ⟨-, -, hsame, -⟩ := exec_next_cases h
  · exact (inv_beginSession _ s cap _).of_sameEngine (State.sameEngine_respondOk _ _)
  · exact afterStep_keeps_inv hs hl hr d
  · exact hs.of_sameEngine hsame

/-- Settles O49: each of the four things a step can do keeps the invariant. -/
theorem everyStepKeepsTheInvariant : Obligations.EveryStepKeepsTheInvariant := by
  intro s t hs h
  have hin (rest : List HostEvent) : Inv engineParams (s.withInbox rest) := hs.of_sameEngine (s.sameEngine_withInbox rest)
  obtain ⟨-, hx⟩ | ⟨rest, -, hx⟩ | ⟨w, rest, e, -, -, hx⟩ | ⟨w, rest, i, -, -, hx⟩ := step_cases s <;> rw [hx] at h
  · cases h; exact hs
  · cases h; exact inv_resetEngine _ _
  · cases h; exact (hin rest).of_sameEngine (State.sameEngine_raise _ _)
  · exact exec_keeps_inv (hin rest) h

/-- Settles O50, from the cases of `STEP`: a step with a key, a refusal, or an error. -/
theorem stepKeepsTheInvariantForAllTaps : Obligations.StepKeepsTheInvariantForAllTaps := by
  intro p s t d hs h
  obtain ⟨S, hl, hr, -, hx⟩ | ⟨-, -, -, hx⟩ | ⟨-, hx⟩ := stepCommand_cases p d s <;> cases h.symm.trans hx
  · exact afterStep_keeps_inv hs hl hr d
  · exact hs.of_sameEngine (s.sameEngine_raise _)

/-- Settles O48: `inv_reset` at the engine's parameters. -/
theorem invariantHoldsAtReset : Obligations.InvariantHoldsAtReset := inv_reset engineParams

-- ---------------------------------------------------------------- who writes the trace and the registers

/-- Settles O34, by the cases of a command that answers a next state; the reset input discards the trace in one step. -/
theorem traceOnlyGrowsWithinASession : Obligations.TraceOnlyGrowsWithinASession := by
  refine ⟨fun i s t h => ?_, fun s rest hin => ⟨(s.withInbox rest).resetEngine, ?_, rfl, rfl⟩⟩
  · obtain ⟨cap, key, rfl, rfl⟩ | ⟨d, S, rfl, hl, hr, rfl⟩ | ⟨hi, hk, ⟨-, -, -, hinit, htrace⟩, -⟩ := exec_next_cases h
    · simp
    · cases hc : s.cap <;> simp [hl, hr, hc, startsSession]
    · refine ⟨?_, fun _ => hinit, ?_, fun _ _ _ => htrace, fun _ _ => htrace⟩
      · rintro cap key rfl
        cases hi
      · intro d S hd hl hr
        exact absurd hr (hk d S hd hl)
  · simp [step, takeInput, hin]

/-- Settles O36, by the cases of a command that answers a next state. -/
theorem onlyLoadkeyAndStepWriteTheRegisters : Obligations.OnlyLoadkeyAndStepWriteTheRegisters := by
  intro i s t h
  obtain ⟨cap, key, rfl, rfl⟩ | ⟨d, S, rfl, hl, hr, rfl⟩ | ⟨hi, hk, hsame, hin⟩ := exec_next_cases h
  · have hkey : loadKey (unpackKey key) = .ok (splitKey (unpackKey key)) :=
      loadKey_of_valid (unpackKey_length key) (unpackKey_symbol key)
    simp [hkey]
  · simp [hr, cipherStep, clock]
  · refine ⟨hin, ?_, fun _ => ?_, fun _ _ => hsame, ?_⟩
    · rintro cap key rfl
      cases hi
    · obtain ⟨hloaded, hcap, -, -, -⟩ := hsame
      exact ⟨hloaded, hcap⟩
    · intro d S hd hl hr
      exact absurd hr (hk d S hd hl)

-- ---------------------------------------------------------------- the trace store

/-- `STEP` with a key, for any parameters (R130, R30). -/
theorem stepCommand_of_key {p : Params} {s : State} {S : CipherState} (d : Bit) (hl : s.loaded = true)
    (hr : s.regs = some S) :
    stepCommand p d s = if s.traceFull p then .refused .traceStoreFull else .next (s.afterStep p S d) := by
  simp [stepCommand, hl, hr]

/-- When a finite store is full (R30). -/
theorem traceFull_of_depth {p : Params} {depth : Nat} {s : State} (hp : p.traceDepth = some depth) (hc : s.cap = true) :
    s.traceFull p = decide (depth ≤ s.tlen) := by
  simp [State.traceFull, hp, hc]

/-- Every command of the engine answers a next state: its store is unbounded (R30, R179). -/
theorem exec_next (i : Instr) (s : State) : ∃ t, exec i s = .next t := by
  obtain ⟨cap, key, -, hx⟩ | ⟨d, S, -, -, -, hx⟩ | ⟨-, -, ⟨e, hx⟩ | ⟨-, v, hx⟩⟩ := exec_cases i s <;> exact ⟨_, hx⟩

/-- Settles O30: the unbounded store is never full, and a finite one is full exactly from `TRACE_DEPTH` on. -/
theorem finiteTraceStoreRefusesWhenFull : Obligations.FiniteTraceStoreRefusesWhenFull := by
  refine ⟨fun s d => exec_next (.step d) s, fun p depth s S recs d hp hl hr hc ht => ?_⟩
  have hlen : s.tlen = recs.length := by simp [State.tlen, ht]
  rw [stepCommand_of_key d hl hr, traceFull_of_depth hp hc, hlen]
  constructor
  · intro hfull
    simp [hfull]
  · intro hbelow
    refine ⟨s.afterStep p S d, by simp [hbelow], ?_⟩
    simp [State.tlen, hc, ht]

-- ---------------------------------------------------------------- answers given before are never read

/-- The state with `l` as answers given before all of its own. -/
def State.prependAnswers (s : State) (l : List RspWord) : State := { s with outbox := l ++ s.outbox }

/-- The state with no answer given yet. -/
def State.withoutAnswers (s : State) : State := { s with outbox := [] }

section
variable (s : State) (l : List RspWord)

@[simp] theorem State.prependAnswers_loaded : (s.prependAnswers l).loaded = s.loaded := rfl
@[simp] theorem State.prependAnswers_cap : (s.prependAnswers l).cap = s.cap := rfl
@[simp] theorem State.prependAnswers_regs : (s.prependAnswers l).regs = s.regs := rfl
@[simp] theorem State.prependAnswers_init : (s.prependAnswers l).init = s.init := rfl
@[simp] theorem State.prependAnswers_trace : (s.prependAnswers l).trace = s.trace := rfl
@[simp] theorem State.prependAnswers_inbox : (s.prependAnswers l).inbox = s.inbox := rfl
@[simp] theorem State.prependAnswers_outbox : (s.prependAnswers l).outbox = l ++ s.outbox := rfl

@[simp] theorem State.prependAnswers_withInbox (rest : List HostEvent) :
    (s.prependAnswers l).withInbox rest = (s.withInbox rest).prependAnswers l := rfl

@[simp] theorem State.prependAnswers_resetEngine :
    (s.prependAnswers l).resetEngine = s.resetEngine.prependAnswers l := rfl

@[simp] theorem State.prependAnswers_beginSession (cap : Bit) (S : CipherState) :
    (s.prependAnswers l).beginSession cap S = (s.beginSession cap S).prependAnswers l := rfl

@[simp] theorem State.prependAnswers_respondOk (v : Payload) :
    (s.prependAnswers l).respondOk v = (s.respondOk v).prependAnswers l := by
  apply State.ext_fields <;> simp

@[simp] theorem State.prependAnswers_raise (e : EngineError) :
    (s.prependAnswers l).raise e = (s.raise e).prependAnswers l := by
  apply State.ext_fields <;> simp

@[simp] theorem State.prependAnswers_afterStep (p : Params) (S : CipherState) (d : Bit) :
    (s.prependAnswers l).afterStep p S d = (s.afterStep p S d).prependAnswers l := by
  cases hc : s.cap <;> apply State.ext_fields <;> simp [hc]

end

/-- A command does the same whatever was answered before, and adds its answer behind (R33, R174). -/
theorem exec_prependAnswers {i : Instr} {s t : State} (h : exec i s = .next t) (l : List RspWord) :
    exec i (s.prependAnswers l) = .next (t.prependAnswers l) := by
  cases i with
  | loadkey cap klen key =>
    simp only [exec, execLoadkey_eq] at h ⊢
    split at h <;> cases h <;> simp [*]
  | step d =>
    obtain ⟨S, hl, hr, -, hx⟩ | ⟨-, -, hfull, -⟩ | ⟨hl | hr, hx⟩ := stepCommand_cases engineParams d s
    · cases h.symm.trans hx
      simp [exec, execStep, stepCommand, hl, hr]
    · simp at hfull
    · cases h.symm.trans hx
      simp [exec, execStep, stepCommand, hl]
    · cases h.symm.trans hx
      simp [exec, execStep, stepCommand, hr]
  | rdinit =>
    obtain ⟨hl, hx⟩ | ⟨hl, hc | hi, hx⟩ | ⟨S, hl, hc, hi, hx⟩ := execRdinit_cases s <;> cases h.symm.trans hx
    · simp [exec, execRdinit, hl]
    · simp [exec, execRdinit, hl, hc]
    · simp [exec, execRdinit, hl, hi]
    · simp [exec, execRdinit, hl, hc, hi]
  | rdtrace idx =>
    have hread : (s.prependAnswers l).traceRead idx = s.traceRead idx := rfl
    obtain ⟨hl, hx⟩ | ⟨hl, hc | hi, hx⟩ | ⟨rec, hl, hc, hi, hx⟩ := execRdtrace_cases idx s <;> cases h.symm.trans hx
    · simp [exec, execRdtrace, hl]
    · simp [exec, execRdtrace, hl, hc]
    · simp [exec, execRdtrace, hl, hread, hi]
    · simp [exec, execRdtrace, hl, hc, hread, hi]
  | rdstat =>
    have hstat : (s.prependAnswers l).statusWord = s.statusWord := rfl
    cases h
    simp [exec, execRdstat, hstat]

/-- A step does the same whatever was answered before. -/
theorem step_prependAnswers {s t : State} (h : step s = .next t) (l : List RspWord) :
    step (s.prependAnswers l) = .next (t.prependAnswers l) := by
  obtain ⟨hin, hx⟩ | ⟨rest, hin, hx⟩ | ⟨w, rest, e, hin, hd, hx⟩ | ⟨w, rest, i, hin, hd, hx⟩ := step_cases s
  · cases h.symm.trans hx
    simp [step, takeInput, hin]
  · cases h.symm.trans hx
    simp [step, takeInput, hin]
  · cases h.symm.trans hx
    simp [step, takeInput, runWord, hin, hd]
  · simpa [step, takeInput, runWord, hin, hd] using exec_prependAnswers (hx.symm.trans h) l

/-- Every step of the engine answers a next state (R30, R179). -/
theorem step_next (s : State) : ∃ t, step s = .next t := by
  obtain ⟨-, hx⟩ | ⟨rest, -, hx⟩ | ⟨w, rest, e, -, -, hx⟩ | ⟨w, rest, i, -, -, hx⟩ := step_cases s
  · exact ⟨_, hx⟩
  · exact ⟨_, hx⟩
  · exact ⟨_, hx⟩
  · rw [hx]
    exact exec_next i _

/-- Settles O45: both states are the state with no answers yet, each with its own answers put in front. -/
theorem stepNeverReadsEarlierAnswers : Obligations.StepNeverReadsEarlierAnswers := by
  rintro s t ⟨hl, hc, hr, hi, ht⟩ hin
  obtain ⟨u, hu⟩ := step_next (s.withoutAnswers)
  have hs : s.withoutAnswers.prependAnswers s.outbox = s := by
    apply State.ext_fields <;> simp [State.withoutAnswers]
  have ht' : s.withoutAnswers.prependAnswers t.outbox = t := by
    apply State.ext_fields <;> simp [State.withoutAnswers, *]
  refine ⟨u.prependAnswers s.outbox, u.prependAnswers t.outbox, u.outbox, ?_, ?_, ⟨rfl, rfl, rfl, rfl, rfl⟩, rfl, rfl, rfl⟩
  · rw [← step_prependAnswers hu s.outbox, hs]
  · rw [← step_prependAnswers hu t.outbox, ht']

end Sys2Proof.Machine
end

section
/-! PROOFS. What the engine holds and how it is named (20_memory.md): the layout of ST23, the record a step number names, and
the one command that a step runs. -/

namespace Sys2Proof.Machine

-- ---------------------------------------------------------------- the state word

/-- ST23 bit by bit: Z in the low 9 bits, Y in the next 8, X above (R43). -/
theorem st23_getLsbD (S : CipherState) (j : Nat) :
    (st23 S).getLsbD j =
      if j < 9 then S.z.getLsbD j else if j < 17 then S.y.getLsbD (j - 9) else S.x.getLsbD (j - 17) := by
  unfold st23
  have hy : j - 9 < 8 ↔ j < 17 := by omega
  rw [BitVec.getLsbD_append, BitVec.getLsbD_append]
  simp only [hy, Nat.sub_sub, Nat.reduceAdd]

/-- Sequence element `i` of a register, as a bit counted from the least significant end (R10, R11). -/
theorem bit_eq_getLsbD {n : Nat} (r : BitVec n) {i : Nat} (h : i < n) : bit r i = r.getLsbD (n - 1 - i) := by
  simp [bit, BitVec.getMsbD, h]

theorem st23_extract_x (S : CipherState) : (st23 S).extractLsb' 17 6 = S.x := by
  apply BitVec.eq_of_getLsbD_eq
  intro j hj
  simp [st23_getLsbD, hj, show ¬ 17 + j < 9 by omega]

theorem st23_extract_y (S : CipherState) : (st23 S).extractLsb' 9 8 = S.y := by
  apply BitVec.eq_of_getLsbD_eq
  intro j hj
  simp [st23_getLsbD, hj, show 9 + j < 17 by omega]

theorem st23_extract_z (S : CipherState) : (st23 S).extractLsb' 0 9 = S.z := by
  apply BitVec.eq_of_getLsbD_eq
  intro j hj
  simp [st23_getLsbD, hj]

/-- Settles O8: the three parts of ST23, and each part read from its most significant end. -/
theorem stateWordLayout : Obligations.StateWordLayout := by
  intro S
  refine ⟨st23_extract_x S, st23_extract_y S, st23_extract_z S, fun i hi => ?_, fun i hi => ?_, fun i hi => ?_⟩ <;>
    rw [st23_getLsbD, bit_eq_getLsbD _ hi]
  · rw [if_neg (by omega), if_neg (by omega), show 22 - i - 17 = 6 - 1 - i by omega]
  · rw [if_neg (by omega), if_pos (by omega), show 16 - i - 9 = 8 - 1 - i by omega]
  · rw [if_pos (by omega)]

-- ---------------------------------------------------------------- the record of a step number

/-- With capture the invariant gives a key, its registers and a trace (R26, R27, R29). -/
theorem Inv.of_cap {p : Params} {s : State} (hs : Inv p s) (hc : s.cap = true) :
    s.loaded = true ∧ (∃ S, s.regs = some S) ∧ ∃ recs, s.trace = some recs := by
  have hl : s.loaded = true := hs.capLoaded hc
  have hr : s.regs.isSome = true := hs.loadedRegs.symm.trans hl
  have ht : s.trace.isSome = true := hs.capTrace.symm.trans hc
  exact ⟨hl, Option.isSome_iff_exists.mp hr, Option.isSome_iff_exists.mp ht⟩

/-- `STEP` with a key: the engine's own store never refuses it (R130, R30). -/
theorem exec_step_of_key {s : State} {S : CipherState} (d : Bit) (hl : s.loaded = true) (hr : s.regs = some S) :
    exec (.step d) s = .next (s.afterStep engineParams S d) := by
  simp [exec, execStep, stepCommand_of_key d hl hr]

/-- `RDTRACE` of an index that names a record answers that record (R148). -/
theorem exec_rdtrace_of_record {s : State} {idx : Nat} {rec : StepRecord} (hl : s.loaded = true) (hc : s.cap = true)
    (hread : s.traceRead idx = some rec) : exec (.rdtrace idx) s = .next (s.respondOk (packRecord rec)) := by
  simp [exec, execRdtrace, hl, hc, hread]

/-- The record of a capturing step is kept under the step's number, the old `TLEN` (R45). -/
theorem traceRead_tlen_afterStep {s : State} {recs : List StepRecord} (hc : s.cap = true) (ht : s.trace = some recs)
    (p : Params) (S : CipherState) (d : Bit) :
    (s.afterStep p S d).traceRead s.tlen = some (cipherStep p S d).2 := by
  simp [State.traceRead, State.tlen, hc, ht]

/-- Settles O35: both answers are the packed record of the step, which `traceRead_tlen_afterStep` finds at the old `TLEN`. -/
theorem recordReadBackIsTheStepsAnswer : Obligations.RecordReadBackIsTheStepsAnswer := by
  intro s t d hs hc h
  obtain ⟨hl, ⟨S, hr⟩, recs, ht⟩ := hs.of_cap hc
  cases (exec_step_of_key d hl hr).symm.trans h
  have hread := traceRead_tlen_afterStep hc ht engineParams S d
  exact ⟨_, _, State.afterStep_outbox engineParams S d s,
    exec_rdtrace_of_record (by simp [hl]) (by simp [hc]) hread, State.respondOk_outbox _ _⟩

-- ---------------------------------------------------------------- one step is one command

/-- A step with a legal word as the oldest input (R48, R65). -/
theorem step_of_command {s : State} {w : Word} {rest : List HostEvent} {i : Instr} (hin : s.inbox = .command w :: rest)
    (hd : decode w = .ok i) : step s = exec i (s.withInbox rest) := by
  simp [step, takeInput, hin, runWord, hd]

theorem decodeTableWord_eq_some_iff {nbits w : Nat} {i : Instr} :
    decodeTableWord nbits w = some i ↔ decode (tableWord nbits w) = .ok i := by
  unfold decodeTableWord
  cases decode (tableWord nbits w) <;> simp

/-- A command put at the head of the inputs and taken again leaves the state as it was (log 1). -/
@[simp] theorem State.withCommand_withInbox (s : State) (w : Word) : (s.withCommand w).withInbox s.inbox = s := rfl

/-- Settles O37: both clauses are `step_of_command`, the second on the word that `withFetchWord` put first. -/
theorem stepRunsTheDecodedCommand : Obligations.StepRunsTheDecodedCommand := by
  refine ⟨fun s w rest i hin hd => step_of_command hin hd, fun s nbits w i hdec => ?_⟩
  have hd : decode (tableWord nbits w) = .ok i := decodeTableWord_eq_some_iff.mp hdec
  have hstep := step_of_command (s.withCommand_inbox (tableWord nbits w)) hd
  rwa [State.withCommand_withInbox] at hstep

end Sys2Proof.Machine
end

section
/-! PROOFS. Encoding (30_encoding.md): the fields of a word, the decoder and the encoder, and the layout of operands, records
and responses. -/

namespace Sys2Proof.Machine

-- ---------------------------------------------------------------- words made of fields

/-- A word is two fields put together iff those are its upper and its lower bits. -/
theorem eq_append_iff {n m : Nat} {a : BitVec n} {b : BitVec m} {w : BitVec (n + m)} :
    w = a ++ b ↔ w.extractLsb' m n = a ∧ w.extractLsb' 0 m = b := by
  constructor
  · rintro rfl
    exact ⟨BitVec.extractLsb'_append_eq_left, BitVec.extractLsb'_append_eq_right⟩
  · rintro ⟨rfl, rfl⟩
    exact BitVec.extractLsb'_append_extractLsb'.symm

/-- A part of a part of a word is a part of the word. -/
theorem extractLsb'_extractLsb' {n start len start' len' : Nat} (w : BitVec n) (h : start' + len' ≤ len) :
    (w.extractLsb' start len).extractLsb' start' len' = w.extractLsb' (start + start') len' := by
  apply BitVec.eq_of_getLsbD_eq
  intro i hi
  simp [hi, show start' + i < len by omega, Nat.add_assoc]

/-! A layout below is cut into its fields while their widths still stand as sums, then the sums are computed. -/

/-- The fields of format K (R61). -/
theorem formatK_eq_iff {op : BitVec 3} {c : BitVec 1} {k : BitVec 5} {key : BitVec 23} {w : Word} :
    w = (op ++ c ++ k ++ key : BitVec 32) ↔
      opField w = op ∧ w.extractLsb' 28 1 = c ∧ w.extractLsb' 23 5 = k ∧ w.extractLsb' 0 23 = key := by
  refine (eq_append_iff (n := 3 + 1 + 5) (m := 23)).trans ?_
  simp only [eq_append_iff]
  simp only [extractLsb'_extractLsb', Nat.reduceAdd, Nat.reduceLeDiff, and_assoc, opField]

/-- The fields of format S (R62). -/
theorem formatS_eq_iff {op : BitVec 3} {r : BitVec 28} {d : BitVec 1} {w : Word} :
    w = (op ++ r ++ d : BitVec 32) ↔ opField w = op ∧ w.extractLsb' 1 28 = r ∧ w.extractLsb' 0 1 = d := by
  refine (eq_append_iff (n := 3 + 28) (m := 1)).trans ?_
  simp only [eq_append_iff]
  simp only [extractLsb'_extractLsb', Nat.reduceAdd, Nat.reduceLeDiff, and_assoc, opField]

/-- The fields of formats N and T (R63, R64). -/
theorem formatT_eq_iff {op : BitVec 3} {body : BitVec 29} {w : Word} :
    w = (op ++ body : BitVec 32) ↔ opField w = op ∧ w.extractLsb' 0 29 = body := eq_append_iff (n := 3) (m := 29)

theorem extractLsb'_one_eq_ofBool_iff {n : Nat} {w : BitVec n} {i : Nat} {b : Bit} :
    w.extractLsb' i 1 = BitVec.ofBool b ↔ w.getLsbD i = b := by
  rw [BitVec.getLsbD_eq_extractLsb']
  generalize w.extractLsb' i 1 = x
  revert x b
  decide

/-- A field holds the number `k` iff it is the encoding of `k` and `k` fits it. -/
theorem eq_ofNat_and_lt_iff {n : Nat} {x : BitVec n} {k : Nat} : x = BitVec.ofNat n k ∧ k < 2 ^ n ↔ x.toNat = k := by
  constructor
  · rintro ⟨rfl, hk⟩
    rw [BitVec.toNat_ofNat, Nat.mod_eq_of_lt hk]
  · rintro rfl
    exact ⟨by simp, x.isLt⟩

-- ---------------------------------------------------------------- the decoder, said once

/-- The operations of R65's reserved rows are the ones left. -/
theorem reservedOp_of_ne {op : BitVec 3} (h1 : op ≠ 0b001#3) (h2 : op ≠ 0b010#3) (h3 : op ≠ 0b011#3) (h4 : op ≠ 0b100#3)
    (h5 : op ≠ 0b101#3) : op ∈ [0b000#3, 0b110#3, 0b111#3] := by
  revert op
  decide

/-- The illegal words as R66 lists them. -/
def IllegalWord (w : Word) : Prop :=
  opField w ∈ [0b000#3, 0b110#3, 0b111#3] ∨ (opField w = 0b010#3 ∧ w.extractLsb' 1 28 ≠ 0#28) ∨
    (opField w ∈ [0b011#3, 0b101#3] ∧ w.extractLsb' 0 29 ≠ 0#29)

/-- Everything the decoder can say of a word (R65, R66). -/
theorem decode_cases (w : Word) :
    (opField w = 0b001#3 ∧
      decode w = .ok (.loadkey (w.getLsbD 28) (w.extractLsb' 23 5).toNat (w.extractLsb' 0 23))) ∨
    (opField w = 0b010#3 ∧ w.extractLsb' 1 28 = 0#28 ∧ decode w = .ok (.step (w.getLsbD 0))) ∨
    (opField w = 0b011#3 ∧ w.extractLsb' 0 29 = 0#29 ∧ decode w = .ok .rdinit) ∨
    (opField w = 0b100#3 ∧ decode w = .ok (.rdtrace (w.extractLsb' 0 29).toNat)) ∨
    (opField w = 0b101#3 ∧ w.extractLsb' 0 29 = 0#29 ∧ decode w = .ok .rdstat) ∨
    (IllegalWord w ∧ ∃ e, decode w = .error e) := by
  unfold decode IllegalWord
  by_cases h1 : opField w = 0b001#3
  · simp [h1]
  by_cases h2 : opField w = 0b010#3
  · by_cases hr : w.extractLsb' 1 28 = 0#28 <;> simp [h2, hr]
  by_cases h3 : opField w = 0b011#3
  · by_cases hr : w.extractLsb' 0 29 = 0#29 <;> simp [h3, hr]
  by_cases h4 : opField w = 0b100#3
  · simp [h4]
  by_cases h5 : opField w = 0b101#3
  · by_cases hr : w.extractLsb' 0 29 = 0#29 <;> simp [h5, hr]
  · simpa [h1, h2, h3, h4, h5] using reservedOp_of_ne h1 h2 h3 h4 h5

section
variable {w : Word}

theorem decode_eq_loadkey_iff {cap : Bit} {klen : Nat} {key : BitVec 23} :
    decode w = .ok (.loadkey cap klen key) ↔
      opField w = 0b001#3 ∧ w.getLsbD 28 = cap ∧ (w.extractLsb' 23 5).toNat = klen ∧ w.extractLsb' 0 23 = key := by
  constructor
  · intro h
    obtain ⟨hop, hd⟩ | ⟨-, -, hd⟩ | ⟨-, -, hd⟩ | ⟨-, hd⟩ | ⟨-, -, hd⟩ | ⟨-, e, hd⟩ := decode_cases w <;>
      cases hd.symm.trans h
    exact ⟨hop, rfl, rfl, rfl⟩
  · rintro ⟨hop, rfl, rfl, rfl⟩
    simp [decode, hop]

theorem decode_eq_step_iff {d : Bit} :
    decode w = .ok (.step d) ↔ opField w = 0b010#3 ∧ w.extractLsb' 1 28 = 0#28 ∧ w.getLsbD 0 = d := by
  constructor
  · intro h
    obtain ⟨-, hd⟩ | ⟨hop, hr, hd⟩ | ⟨-, -, hd⟩ | ⟨-, hd⟩ | ⟨-, -, hd⟩ | ⟨-, e, hd⟩ := decode_cases w <;>
      cases hd.symm.trans h
    exact ⟨hop, hr, rfl⟩
  · rintro ⟨hop, hr, rfl⟩
    simp [decode, hop, hr]

theorem decode_eq_rdinit_iff : decode w = .ok .rdinit ↔ opField w = 0b011#3 ∧ w.extractLsb' 0 29 = 0#29 := by
  constructor
  · intro h
    obtain ⟨-, hd⟩ | ⟨-, -, hd⟩ | ⟨hop, hr, hd⟩ | ⟨-, hd⟩ | ⟨-, -, hd⟩ | ⟨-, e, hd⟩ := decode_cases w <;>
      cases hd.symm.trans h
    exact ⟨hop, hr⟩
  · rintro ⟨hop, hr⟩
    simp [decode, hop, hr]

theorem decode_eq_rdtrace_iff {idx : Nat} :
    decode w = .ok (.rdtrace idx) ↔ opField w = 0b100#3 ∧ (w.extractLsb' 0 29).toNat = idx := by
  constructor
  · intro h
    obtain ⟨-, hd⟩ | ⟨-, -, hd⟩ | ⟨-, -, hd⟩ | ⟨hop, hd⟩ | ⟨-, -, hd⟩ | ⟨-, e, hd⟩ := decode_cases w <;>
      cases hd.symm.trans h
    exact ⟨hop, rfl⟩
  · rintro ⟨hop, rfl⟩
    simp [decode, hop]

theorem decode_eq_rdstat_iff : decode w = .ok .rdstat ↔ opField w = 0b101#3 ∧ w.extractLsb' 0 29 = 0#29 := by
  constructor
  · intro h
    obtain ⟨-, hd⟩ | ⟨-, -, hd⟩ | ⟨-, -, hd⟩ | ⟨-, hd⟩ | ⟨hop, hr, hd⟩ | ⟨-, e, hd⟩ := decode_cases w <;>
      cases hd.symm.trans h
    exact ⟨hop, hr⟩
  · rintro ⟨hop, hr⟩
    simp [decode, hop, hr]

theorem decode_eq_error_iff : (∃ e, decode w = .error e) ↔ IllegalWord w := by
  obtain ⟨hop, hd⟩ | ⟨hop, hr, hd⟩ | ⟨hop, hr, hd⟩ | ⟨hop, hd⟩ | ⟨hop, hr, hd⟩ | ⟨hill, e, hd⟩ := decode_cases w
  case inr.inr.inr.inr.inr => exact iff_of_true ⟨e, hd⟩ hill
  all_goals simp [IllegalWord, *]

end

-- ---------------------------------------------------------------- decoding and encoding

/-- Decoding and encoding are inverse to each other: each command word is the encoding of one well-formed command. -/
theorem decode_eq_ok_iff {w : Word} {i : Instr} : decode w = .ok i ↔ w = encode i ∧ i.wellFormed = true := by
  cases i with
  | loadkey cap klen key =>
    simp only [decode_eq_loadkey_iff, encode, formatK_eq_iff, extractLsb'_one_eq_ofBool_iff, ← eq_ofNat_and_lt_iff,
      Instr.wellFormed, decide_eq_true_eq]
    tauto
  | step d =>
    simp only [decode_eq_step_iff, encode, formatS_eq_iff, extractLsb'_one_eq_ofBool_iff, Instr.wellFormed, and_true]
  | rdinit => simp only [decode_eq_rdinit_iff, encode, formatT_eq_iff, Instr.wellFormed, and_true]
  | rdtrace idx =>
    simp only [decode_eq_rdtrace_iff, encode, formatT_eq_iff, ← eq_ofNat_and_lt_iff, Instr.wellFormed,
      decide_eq_true_eq, and_assoc]
  | rdstat => simp only [decode_eq_rdstat_iff, encode, formatT_eq_iff, Instr.wellFormed, and_true]

/-- Settles O1: `decode_eq_ok_iff` at the word `encode i`. -/
theorem decodeOfEncodeGivesTheCommand : Obligations.DecodeOfEncodeGivesTheCommand :=
  fun _ hi => decode_eq_ok_iff.2 ⟨rfl, hi⟩

/-- Settles O2, by `decode_eq_ok_iff`. -/
theorem encodeOfDecodeGivesTheWord : Obligations.EncodeOfDecodeGivesTheWord :=
  fun _ _ h => (decode_eq_ok_iff.1 h).imp_left Eq.symm

-- ---------------------------------------------------------------- match and mask

/-- The mask of the rows whose operation alone decides (R65). -/
theorem and_opMask_eq_iff {w : Word} {op : BitVec 3} : w &&& 0xE0000000#32 = op ++ 0#29 ↔ opField w = op := by
  have hop : (0xE0000000#32).extractLsb' 29 3 = BitVec.allOnes 3 := by decide
  have hbody : (0xE0000000#32).extractLsb' 0 29 = 0#29 := by decide
  simp only [formatT_eq_iff, opField, BitVec.extractLsb'_and, hop, hbody, BitVec.and_allOnes, BitVec.and_zero,
    and_true]

/-- The mask of `STEP`: all but the data bit (R65). -/
theorem and_stepMask_eq_iff {w : Word} :
    w &&& 0xFFFFFFFE#32 = 0x40000000#32 ↔ opField w = 0b010#3 ∧ w.extractLsb' 1 28 = 0#28 := by
  have hop : (0xFFFFFFFE#32).extractLsb' 29 3 = BitVec.allOnes 3 := by decide
  have hres : (0xFFFFFFFE#32).extractLsb' 1 28 = BitVec.allOnes 28 := by decide
  have hd : (0xFFFFFFFE#32).extractLsb' 0 1 = 0#1 := by decide
  rw [show (0x40000000#32) = (0b010#3 ++ 0#28 ++ 0#1 : BitVec 32) from rfl]
  simp only [formatS_eq_iff, opField, BitVec.extractLsb'_and, hop, hres, hd, BitVec.and_allOnes,
    BitVec.and_zero, and_true]

/-- The mask of `RDINIT` and `RDSTAT`: every bit (R65). -/
theorem and_fullMask_eq_iff {w : Word} {op : BitVec 3} :
    w &&& 0xFFFFFFFF#32 = op ++ 0#29 ↔ opField w = op ∧ w.extractLsb' 0 29 = 0#29 := by
  rw [show (0xFFFFFFFF#32) = BitVec.allOnes 32 from rfl, BitVec.and_allOnes, formatT_eq_iff]

/-- Settles O3: each row's mask leaves the fields that the decoder tests for that row. -/
theorem decodeFollowsMatchAndMask : Obligations.DecodeFollowsMatchAndMask := by
  intro w
  refine ⟨?_, ?_, ?_, ?_, ?_, fun hop => decode_eq_error_iff.2 (.inl hop)⟩
  · simpa [decode_eq_loadkey_iff] using (and_opMask_eq_iff (w := w) (op := 0b001#3)).symm
  · simp [decode_eq_step_iff, and_stepMask_eq_iff]
  · exact decode_eq_rdinit_iff.trans and_fullMask_eq_iff.symm
  · simpa [decode_eq_rdtrace_iff] using (and_opMask_eq_iff (w := w) (op := 0b100#3)).symm
  · exact decode_eq_rdstat_iff.trans and_fullMask_eq_iff.symm

-- ---------------------------------------------------------------- illegal words

/-- A step on an illegal word (R66, R172). -/
theorem step_of_illegal {s : State} {w : Word} {rest : List HostEvent} {e : Illegal} (hin : s.inbox = .command w :: rest)
    (hd : decode w = .error e) : step s = .next ((s.withInbox rest).raise .illegalCommand) := by
  simp [step, takeInput, hin, runWord, hd]

/-- Settles O4, by `decode_eq_error_iff` and `step_of_illegal`. -/
theorem illegalWordsAreExactlyThese : Obligations.IllegalWordsAreExactlyThese :=
  ⟨fun _ => decode_eq_error_iff, decode_eq_error_iff.2 (.inl (by decide)), fun _ _ _ _ hin hd =>
    step_of_illegal hin hd⟩

-- ---------------------------------------------------------------- operands

/-- The state after a successful `LOADKEY` (R93). -/
def State.afterLoadkey (cap : Bit) (key : BitVec 23) (s : State) : State :=
  (s.beginSession cap (splitKey (unpackKey key))).respondOk ((st23 (splitKey (unpackKey key))).zeroExtend 56)

@[simp] theorem State.afterLoadkey_inbox (cap : Bit) (key : BitVec 23) (s : State) :
    (s.afterLoadkey cap key).inbox = s.inbox := rfl

@[simp] theorem State.afterLoadkey_outbox (cap : Bit) (key : BitVec 23) (s : State) :
    (s.afterLoadkey cap key).outbox =
      s.outbox ++ [respondWord okCode ((st23 (splitKey (unpackKey key))).zeroExtend 56)] := rfl

theorem exec_loadkey_of_length (cap : Bit) (key : BitVec 23) (s : State) :
    exec (.loadkey cap 23 key) s = .next (s.afterLoadkey cap key) := by
  simp [exec, execLoadkey_eq, State.afterLoadkey]

theorem exec_loadkey_of_bad_length (cap : Bit) {klen : Nat} (key : BitVec 23) (s : State) (hk : klen ≠ 23) :
    exec (.loadkey cap klen key) s = .next (s.raise .invalidKeyLength) := by
  simp [exec, execLoadkey_eq, hk]

/-- Symbol `i` of the key operand, as a bit of the command word (R67). -/
theorem bit_keyField (w : Word) {i : Nat} (hi : i < 23) : bit (w.extractLsb' 0 23) i = w.getLsbD (22 - i) := by
  rw [bit_eq_getLsbD _ hi, BitVec.getLsbD_extractLsb']
  simp [show 22 - i < 23 by omega]

/-- Settles O5: the symbols by `bit_keyField`; a key of 23 bits loads; a wrong length is answered without the key. -/
theorem keyOperandOfLoadkey : Obligations.KeyOperandOfLoadkey := by
  refine ⟨fun w cap klen key hd => ?_, fun key e => ?_, fun cap klen key key' s hk => ?_⟩
  · obtain ⟨-, -, rfl, rfl⟩ := decode_eq_loadkey_iff.1 hd
    exact ⟨rfl, unpackKey_length _, fun i hi => by rw [unpackKey_getElem? _ hi, bit_keyField w hi, symbol]⟩
  · simp [loadKey_of_valid (unpackKey_length key) (unpackKey_symbol key)]
  · rw [exec_loadkey_of_bad_length cap key s hk, exec_loadkey_of_bad_length cap key' s hk]

/-- Settles O6, by what `decode` gives as operands. -/
theorem otherOperandsAreUnsignedFields : Obligations.OtherOperandsAreUnsignedFields := by
  intro w
  simp only [decode_eq_loadkey_iff, decode_eq_step_iff, decode_eq_rdtrace_iff]
  refine ⟨?_, ?_, ?_⟩
  · rintro cap klen key ⟨-, rfl, -, -⟩
    rfl
  · rintro d ⟨-, -, rfl⟩
    rfl
  · rintro idx ⟨-, rfl⟩
    rfl

-- ---------------------------------------------------------------- responses and records

/-- The bits between status and payload are 0 (R69). -/
@[simp] theorem respondWord_reserved (c : BitVec 3) (v : Payload) : (respondWord c v).extractLsb' 56 5 = 0#5 := by
  apply BitVec.eq_of_getLsbD_eq
  intro i hi
  simp [respondWord_getLsbD, show 56 + i < 61 by omega]

/-- Settles O10: the three fields, one lemma each. -/
theorem responseWordLayout : Obligations.ResponseWordLayout :=
  ⟨fun c v => ⟨rspStatus_respondWord c v, respondWord_reserved c v, rspPayload_respondWord c v⟩, fun _ => rfl,
    by decide⟩

/-- The fields of the packed StepRecord (R73). -/
theorem eq_packRecord_iff {w : Payload} {r : StepRecord} :
    w = packRecord r ↔
      w.getLsbD 55 = r.cx ∧ w.getLsbD 54 = r.cy ∧ w.getLsbD 53 = r.cz ∧ w.getLsbD 52 = r.m ∧
      w.getLsbD 51 = r.rx ∧ w.getLsbD 50 = r.ry ∧ w.getLsbD 49 = r.rz ∧
      w.extractLsb' 26 23 = st23 r.pre ∧ w.extractLsb' 3 23 = st23 r.post ∧
      w.getLsbD 2 = r.s ∧ w.getLsbD 1 = r.d ∧ w.getLsbD 0 = r.o := by
  refine (eq_append_iff (n := 1 + 1 + 1 + 1 + 1 + 1 + 1 + 23 + 23 + 1 + 1) (m := 1)).trans ?_
  simp only [eq_append_iff]
  simp only [extractLsb'_extractLsb', extractLsb'_one_eq_ofBool_iff, Nat.reduceAdd, Nat.reduceLeDiff,
    and_assoc]

theorem st23_injective : Function.Injective st23 := by
  intro S T h
  have hx : S.x = T.x := by rw [← st23_extract_x S, h, st23_extract_x]
  have hy : S.y = T.y := by rw [← st23_extract_y S, h, st23_extract_y]
  have hz : S.z = T.z := by rw [← st23_extract_z S, h, st23_extract_z]
  cases S; cases T; simp_all

theorem packRecord_injective : Function.Injective packRecord := by
  intro r r' h
  have hfields := eq_packRecord_iff.1 (Eq.refl (packRecord r))
  have hfields' := eq_packRecord_iff.1 h
  have hpre : r.pre = r'.pre := st23_injective (by simp_all)
  have hpost : r.post = r'.post := st23_injective (by simp_all)
  cases r; cases r'; simp_all

/-- Settles O9: the layout is `eq_packRecord_iff` at the packed record itself. -/
theorem packedRecordLayout : Obligations.PackedRecordLayout :=
  ⟨fun _ => eq_packRecord_iff.1 rfl, fun _ _ h => packRecord_injective h, by decide⟩

end Sys2Proof.Machine
end

section
/-! PROOFS. Responses (30_encoding.md sections 4 and 5): the one answer of every command word and its status, and the answers
of `PROCESS` and of the trace reads. -/

namespace Sys2Proof.Machine

-- ---------------------------------------------------------------- what a command word is answered with

/-- The error that answers a command, `none` for `OK` (R70; the order of checks of R171). -/
def commandError (s : State) : Instr → Option EngineError
  | .loadkey _ klen _ => if klen = 23 then none else some .invalidKeyLength
  | .step _ => if s.loaded && s.regs.isSome then none else some .noKeyLoaded
  | .rdinit =>
    if s.loaded then if s.cap && s.init.isSome then none else some .traceUnavailable else some .noKeyLoaded
  | .rdtrace idx =>
    if s.loaded then if s.cap && (s.traceRead idx).isSome then none else some .traceUnavailable else some .noKeyLoaded
  | .rdstat => none

/-- The error that answers a command word, `none` for `OK` (R70, R172). -/
def wordError (s : State) (w : Word) : Option EngineError :=
  match decode w with
  | .ok i => commandError s i
  | .error _ => some .illegalCommand

/-- The response words that report `e`, or `OK` for `none` (R70, R72). -/
def Reports (r : RspWord) : Option EngineError → Prop
  | none => ∃ v, r = respondWord okCode v
  | some e => r = errorWord e

/-- From `s` to `t` the engine gave one answer, which reports `e`, and took no input. -/
def AnsweredOnce (s t : State) (e : Option EngineError) : Prop :=
  t.inbox = s.inbox ∧ ∃ r, t.outbox = s.outbox ++ [r] ∧ Reports r e

theorem answeredOnce_raise (s : State) (e : EngineError) : AnsweredOnce s (s.raise e) (some e) := ⟨rfl, _, rfl, rfl⟩

theorem answeredOnce_respondOk (s : State) (v : Payload) : AnsweredOnce s (s.respondOk v) none := ⟨rfl, _, rfl, v, rfl⟩

theorem answeredOnce_afterStep (p : Params) (S : CipherState) (d : Bit) (s : State) :
    AnsweredOnce s (s.afterStep p S d) none :=
  ⟨State.afterStep_inbox p S d s, _, State.afterStep_outbox p S d s, _, rfl⟩

theorem answeredOnce_afterLoadkey (cap : Bit) (key : BitVec 23) (s : State) :
    AnsweredOnce s (s.afterLoadkey cap key) none := ⟨rfl, _, rfl, _, rfl⟩

/-- Every command is answered once, by the error of its cause or `OK` (R69, R70). -/
theorem exec_answeredOnce (i : Instr) (s : State) : ∃ t, exec i s = .next t ∧ AnsweredOnce s t (commandError s i) := by
  cases i with
  | loadkey cap klen key =>
    by_cases hk : klen = 23
    · subst hk
      exact ⟨_, exec_loadkey_of_length cap key s, answeredOnce_afterLoadkey cap key s⟩
    · exact ⟨_, exec_loadkey_of_bad_length cap key s hk, by simpa [commandError, hk] using answeredOnce_raise s _⟩
  | step d =>
    obtain ⟨S, hl, hr, -, hx⟩ | ⟨-, -, hfull, -⟩ | ⟨hn, hx⟩ := stepCommand_cases engineParams d s
    · exact ⟨_, hx, by simpa [commandError, hl, hr] using answeredOnce_afterStep _ S d s⟩
    · simp at hfull
    · have he : commandError s (.step d) = some .noKeyLoaded := by obtain h | h := hn <;> simp [commandError, h]
      exact ⟨_, hx, he ▸ answeredOnce_raise s _⟩
  | rdinit =>
    obtain ⟨hl, hx⟩ | ⟨hl, hn, hx⟩ | ⟨S, hl, hc, hi, hx⟩ := execRdinit_cases s
    · exact ⟨_, hx, by simpa [commandError, hl] using answeredOnce_raise s _⟩
    · have he : commandError s .rdinit = some .traceUnavailable := by obtain h | h := hn <;> simp [commandError, hl, h]
      exact ⟨_, hx, he ▸ answeredOnce_raise s _⟩
    · exact ⟨_, hx, by simpa [commandError, hl, hc, hi] using answeredOnce_respondOk s _⟩
  | rdtrace idx =>
    obtain ⟨hl, hx⟩ | ⟨hl, hn, hx⟩ | ⟨rec, hl, hc, hi, hx⟩ := execRdtrace_cases idx s
    · exact ⟨_, hx, by simpa [commandError, hl] using answeredOnce_raise s _⟩
    · have he : commandError s (.rdtrace idx) = some .traceUnavailable := by
        obtain h | h := hn <;> simp [commandError, hl, h]
      exact ⟨_, hx, he ▸ answeredOnce_raise s _⟩
    · exact ⟨_, hx, by simpa [commandError, hl, hc, hi] using answeredOnce_respondOk s _⟩
  | rdstat => exact ⟨_, rfl, answeredOnce_respondOk s _⟩

/-- A step on a command word answers it once, by the error of its cause or `OK` (R69, R70, R172). -/
theorem step_answers {s : State} {w : Word} {rest : List HostEvent} (hin : s.inbox = .command w :: rest) :
    ∃ t r, step s = .next t ∧ t.inbox = rest ∧ t.outbox = s.outbox ++ [r] ∧ Reports r (wordError s w) := by
  unfold wordError
  cases hd : decode w with
  | error e => exact ⟨_, _, step_of_illegal hin hd, rfl, rfl, rfl⟩
  | ok i =>
    obtain ⟨t, hx, hti, r, hto, hr⟩ := exec_answeredOnce i (s.withInbox rest)
    exact ⟨t, r, (step_of_command hin hd).trans hx, hti, hto, hr⟩

theorem Reports.reserved {r : RspWord} {e : Option EngineError} (h : Reports r e) : r.extractLsb' 56 5 = 0#5 := by
  cases e with
  | none => obtain ⟨v, rfl⟩ := h; exact respondWord_reserved _ v
  | some e => cases h; exact respondWord_reserved _ 0

/-- An answer whose status is not `OK` carries no payload (R72). -/
theorem Reports.payload {r : RspWord} {e : Option EngineError} (h : Reports r e) (hne : rspStatus r ≠ okCode) :
    rspPayload r = 0#56 := by
  cases e with
  | none => obtain ⟨v, rfl⟩ := h; exact absurd (rspStatus_respondWord _ v) hne
  | some e => cases h; exact rspPayload_respondWord _ 0

/-- Settles O41, by `step_answers` and the form of every answer. -/
theorem everyCommandIsAnsweredByOneWord : Obligations.EveryCommandIsAnsweredByOneWord := by
  intro s w rest hin
  obtain ⟨t, r, hstep, hti, hto, hr⟩ := step_answers hin
  exact ⟨t, r, hstep, hti, hto, hr.reserved, hr.payload⟩

theorem errorCode_injective : Function.Injective errorCode := by
  intro e e'
  cases e <;> cases e' <;> decide

/-- The status of an answer names the error it reports (R70). -/
theorem Reports.status_eq_iff {r : RspWord} {o : Option EngineError} (h : Reports r o) (e : EngineError) :
    r.extractLsb' 61 3 = errorCode e ↔ o = some e := by
  cases o with
  | none =>
    obtain ⟨v, rfl⟩ := h
    have hst : (respondWord okCode v).extractLsb' 61 3 = okCode := rspStatus_respondWord _ v
    simp [hst, (errorCode_ne_ok e).symm]
  | some e' =>
    cases h
    have hst : (errorWord e').extractLsb' 61 3 = errorCode e' := rspStatus_respondWord _ 0
    rw [hst, Option.some.injEq, errorCode_injective.eq_iff]

/-- The index of a record is one below `TLEN` (R45, R148). -/
theorem traceRead_isSome (s : State) (idx : Nat) : (s.traceRead idx).isSome = decide (idx < s.tlen) := by
  rw [Bool.eq_iff_iff, decide_eq_true_eq]
  simp [State.traceRead, State.tlen]

section
variable {s : State} {w : Word}

theorem wordError_eq_illegalCommand_iff : wordError s w = some .illegalCommand ↔ ∃ e, decode w = .error e := by
  unfold wordError
  cases decode w with
  | error e => simp
  | ok i => cases i <;> grind [commandError]

theorem wordError_eq_invalidKeyLength_iff :
    wordError s w = some .invalidKeyLength ↔ ∃ cap klen key, decode w = .ok (.loadkey cap klen key) ∧ klen ≠ 23 := by
  unfold wordError
  cases decode w with
  | error e => simp
  | ok i => cases i <;> grind [commandError]

theorem wordError_eq_noKeyLoaded_iff (hs : Inv engineParams s) :
    wordError s w = some .noKeyLoaded ↔ s.loaded = false ∧
      ((∃ d, decode w = .ok (.step d)) ∨ decode w = .ok .rdinit ∨ ∃ idx, decode w = .ok (.rdtrace idx)) := by
  unfold wordError
  cases decode w with
  | error e => simp
  | ok i => cases i <;> simp [commandError, ← hs.loadedRegs]

theorem wordError_eq_traceUnavailable_iff (hs : Inv engineParams s) :
    wordError s w = some .traceUnavailable ↔ s.loaded = true ∧
      ((decode w = .ok .rdinit ∧ s.cap = false) ∨
        ∃ idx, decode w = .ok (.rdtrace idx) ∧ (s.cap = false ∨ s.tlen ≤ idx)) := by
  unfold wordError
  cases decode w with
  | error e => simp
  | ok i =>
    cases hl : s.loaded <;> cases hc : s.cap <;> cases i <;>
      simp [commandError, hl, hc, ← hs.loadedRegs, ← hs.capInit, traceRead_isSome]

/-- The other errors are never sent: a command word carries bits only, and the codec is no part of the engine (R70). -/
theorem sent_of_wordError_eq {e : EngineError} (h : wordError s w = some e) :
    e = .invalidKeyLength ∨ e = .noKeyLoaded ∨ e = .traceUnavailable ∨ e = .illegalCommand := by
  unfold wordError at h
  cases hd : decode w with
  | error _ => simp_all
  | ok i => cases i <;> grind [commandError]

end

/-- Settles O42: the status names the error, and each error has its cause. -/
theorem statusCodeTellsTheCause : Obligations.StatusCodeTellsTheCause := by
  refine ⟨by decide, fun s w rest hs hin => ?_⟩
  obtain ⟨t, r, hstep, -, hto, hr⟩ := step_answers hin
  have status (e : EngineError) : r.extractLsb' 61 3 = errorCode e ↔ wordError s w = some e := hr.status_eq_iff e
  have unsent (e : EngineError)
      (he : ¬ (e = .invalidKeyLength ∨ e = .noKeyLoaded ∨ e = .traceUnavailable ∨ e = .illegalCommand)) :
      r.extractLsb' 61 3 ≠ errorCode e := fun h => he (sent_of_wordError_eq ((status e).1 h))
  exact ⟨t, r, hstep, hto, (status .invalidKeyLength).trans wordError_eq_invalidKeyLength_iff,
    unsent .invalidBitValue (by decide), unsent .invalidDataLength (by decide), unsent .invalidCharacter (by decide),
    (status .noKeyLoaded).trans (wordError_eq_noKeyLoaded_iff hs),
    (status .traceUnavailable).trans (wordError_eq_traceUnavailable_iff hs),
    (status .illegalCommand).trans wordError_eq_illegalCommand_iff⟩

-- ---------------------------------------------------------------- a recorded session and its read-out

@[simp] theorem runSteps_length (p : Params) (S : CipherState) (D : List Bit) : (runSteps p S D).2.length = D.length := by
  induction D generalizing S with
  | nil => rfl
  | cons d ds ih => simp [runSteps, ih]

theorem asInputs_append (cmds cmds' : List Instr) : asInputs (cmds ++ cmds') = asInputs cmds ++ asInputs cmds' :=
  List.map_append

/-- A session with capture: it started at `S0`, has the records `recs`, and stands at `S` (R27, R29). -/
structure Recording (s : State) (S0 S : CipherState) (recs : List StepRecord) : Prop where
  loaded : s.loaded = true
  cap : s.cap = true
  regs : s.regs = some S
  init : s.init = some S0
  trace : s.trace = some recs

theorem recording_afterLoadkey (s : State) (key : BitVec 23) :
    Recording (s.afterLoadkey true key) (splitKey (unpackKey key)) (splitKey (unpackKey key)) [] :=
  ⟨rfl, rfl, rfl, rfl, rfl⟩

section
variable {s : State} {S0 S : CipherState} {recs : List StepRecord}

/-- A recording is a fact about the engine's own state. -/
theorem Recording.of_sameEngine {t : State} (hs : Recording s S0 S recs) (h : t.sameEngine s) : Recording t S0 S recs := by
  obtain ⟨hl, hc, hr, hi, ht⟩ := h
  exact ⟨hl.trans hs.loaded, hc.trans hs.cap, hr.trans hs.regs, hi.trans hs.init, ht.trans hs.trace⟩

theorem Recording.withInbox (hs : Recording s S0 S recs) (rest : List HostEvent) :
    Recording (s.withInbox rest) S0 S recs := hs.of_sameEngine (s.sameEngine_withInbox rest)

/-- A `STEP` adds its record (R130). -/
theorem Recording.afterStep (hs : Recording s S0 S recs) (p : Params) (d : Bit) :
    Recording (s.afterStep p S d) S0 (cipherStep p S d).1 (recs ++ [(cipherStep p S d).2]) where
  loaded := by simp [hs.loaded]
  cap := by simp [hs.cap]
  regs := by simp
  init := by simp [hs.init]
  trace := by simp [hs.cap, hs.trace]

/-- `RDINIT` answers where the session started (R147). -/
theorem Recording.exec_rdinit (hs : Recording s S0 S recs) :
    exec .rdinit s = .next (s.respondOk ((st23 S0).zeroExtend 56)) := by
  simp [exec, execRdinit, hs.loaded, hs.cap, hs.init]

/-- A run whose first input is the word of a well-formed command runs that command first (R48). -/
theorem run_succ_of_command {i : Instr} {rest : List HostEvent} {t : State} (k : Nat) (hi : i.wellFormed = true)
    (hin : s.inbox = .command (encode i) :: rest) (hx : exec i (s.withInbox rest) = .next t) :
    Host.Core.run core (k + 1) s = Host.Core.run core k t :=
  run_succ_of_step k ((step_of_command hin (decodeOfEncodeGivesTheCommand i hi)).trans hx)

/-- The `OK` answer that carries a record (R130, R148). -/
def recordAnswer (r : StepRecord) : RspWord := respondWord okCode (packRecord r)

theorem recordAnswer_eq : recordAnswer = fun r => (packRecord r).zeroExtend 64 := funext fun _ => respondWord_ok _

/-- The output bit stands at bit 0 of a `STEP`'s answer (R71, R73). -/
theorem recordAnswer_getLsbD_zero (r : StepRecord) : (recordAnswer r).getLsbD 0 = r.o := by
  obtain ⟨-, -, -, -, -, -, -, -, -, -, -, ho⟩ := eq_packRecord_iff.1 (Eq.refl (packRecord r))
  rw [recordAnswer, respondWord_getLsbD, if_pos (by decide), ho]

/-- The `STEP`s of a recorded session run the loop of `process` and answer its records (R75, R140). -/
theorem run_steps_of_recording (hs : Recording s S0 S recs) (D : List Bit) {later : List HostEvent}
    (hin : s.inbox = asInputs (D.map .step) ++ later) :
    ∃ t, Host.Core.run core D.length s = .next t ∧ t.inbox = later ∧
      Recording t S0 (runSteps engineParams S D).1 (recs ++ (runSteps engineParams S D).2) ∧
      t.outbox = s.outbox ++ (runSteps engineParams S D).2.map recordAnswer := by
  induction D generalizing s S recs with
  | nil => exact ⟨s, rfl, hin, by simpa [runSteps] using hs, by simp [runSteps]⟩
  | cons d ds ih =>
    have hs' := hs.withInbox (asInputs (ds.map .step) ++ later)
    obtain ⟨t, hrun, hti, ht, hto⟩ := ih (hs'.afterStep engineParams d) (by simp)
    refine ⟨t, ?_, hti, by simpa [runSteps] using ht, by simpa [runSteps, recordAnswer] using hto⟩
    exact (run_succ_of_command _ rfl hin (exec_step_of_key d hs'.loaded hs'.regs)).trans hrun

/-- `PROCESS` with capture records the session of its key and data and answers its records (R75, R93, R140). -/
theorem run_process (key : BitVec 23) (hkey : splitKey (unpackKey key) = S0) (D : List Bit) {later : List HostEvent}
    (hin : s.inbox = asInputs (processCommands key D true) ++ later) :
    ∃ t, Host.Core.run core (D.length + 1) s = .next t ∧ t.inbox = later ∧
      Recording t S0 (runSteps engineParams S0 D).1 (runSteps engineParams S0 D).2 ∧
      t.outbox = s.outbox ++
        respondWord okCode ((st23 S0).zeroExtend 56) :: (runSteps engineParams S0 D).2.map recordAnswer := by
  subst hkey
  have hload := exec_loadkey_of_length true key (s.withInbox (asInputs (D.map .step) ++ later))
  obtain ⟨t, hrun, hti, ht, hto⟩ := run_steps_of_recording
    (recording_afterLoadkey (s.withInbox (asInputs (D.map .step) ++ later)) key) D
    (State.afterLoadkey_inbox true key _)
  exact ⟨t, (run_succ_of_command _ rfl hin hload).trans hrun, hti, ht, by simpa using hto⟩

/-- `RDTRACE` from number `done.length` on answers the records from there on, in order (R75, R148). -/
theorem run_rdtraces_of_recording (done todo : List StepRecord) (hs : Recording s S0 S (done ++ todo))
    (hfit : done.length + todo.length ≤ 2 ^ 29)
    (hin : s.inbox = asInputs ((List.range' done.length todo.length).map .rdtrace)) :
    ∃ t, Host.Core.run core todo.length s = .next t ∧ t.inbox = [] ∧
      t.outbox = s.outbox ++ todo.map recordAnswer := by
  induction todo generalizing s done with
  | nil => exact ⟨s, rfl, hin, by simp⟩
  | cons r rs ih =>
    rw [List.length_cons] at hfit
    have hs' := hs.withInbox (asInputs ((List.range' (done.length + 1) rs.length).map .rdtrace))
    have hidx : (Instr.rdtrace done.length).wellFormed = true := decide_eq_true (by omega)
    have hx := exec_rdtrace_of_record (idx := done.length) (rec := r) hs'.loaded hs'.cap
      (by simp [State.traceRead, hs.trace])
    obtain ⟨t, hrun, hti, hto⟩ := ih (done ++ [r])
      (by simpa using hs'.of_sameEngine (State.sameEngine_respondOk _ (packRecord r)))
      (by rw [List.length_append, List.length_singleton]; omega) (by simp)
    exact ⟨t, (run_succ_of_command _ hidx hin hx).trans hrun, hti, by simpa [recordAnswer] using hto⟩

/-- The trace reads of a recorded session answer its start and its records (R75, R147, R148). -/
theorem run_traceReads_of_recording (hs : Recording s S0 S recs) (hfit : recs.length ≤ 2 ^ 29)
    (hin : s.inbox = asInputs (traceReadCommands recs.length)) :
    ∃ t, Host.Core.run core (recs.length + 1) s = .next t ∧ t.inbox = [] ∧
      t.outbox = s.outbox ++
        (st23 S0).zeroExtend 64 :: recs.map (fun rec => (packRecord rec).zeroExtend 64) := by
  rw [traceReadCommands, List.range_eq_range'] at hin
  have hs' := hs.withInbox (asInputs ((List.range' 0 recs.length).map .rdtrace))
  obtain ⟨t, hrun, hti, hto⟩ := run_rdtraces_of_recording [] recs
    (hs'.of_sameEngine (State.sameEngine_respondOk _ ((st23 S0).zeroExtend 56))) (by simpa using hfit) rfl
  refine ⟨t, (run_succ_of_command _ rfl hin hs'.exec_rdinit).trans hrun, hti, ?_⟩
  simpa [respondWord_ok, recordAnswer_eq] using hto

end

/-- Settles O56: the run of `PROCESS`, then the run of the trace reads on the session it recorded. -/
theorem processThenTraceReadsGiveTheTrace : Obligations.ProcessThenTraceReadsGiveTheTrace := by
  intro s key D hD hin
  rw [asInputs_append] at hin
  obtain ⟨u, hrunu, hui, hu, huo⟩ := run_process key rfl D hin
  obtain ⟨t, hrunt, hti, hto⟩ := run_traceReads_of_recording hu (by simpa using hD) (by simpa using hui)
  rw [runSteps_length] at hrunt
  refine ⟨_, t, _, _, loadKey_of_valid (unpackKey_length key) (unpackKey_symbol key), ?_, hti, ?_, ?_,
    hto.trans (by rw [huo])⟩
  · rw [show 2 * D.length + 2 = D.length + 1 + (D.length + 1) by omega, run_add hrunu, hrunt]
  · simp
  · rw [process, List.map_map]
    exact List.map_congr_left fun r _ => recordAnswer_getLsbD_zero r

end Sys2Proof.Machine
end

section
/-! PROOFS. Key loading (40_key_loading.md): a valid key is a key operand of 23 bits, `load_key` and ST23 are inverse to each
other, what `LOADKEY` does, and the stream of the all-zero key. -/

namespace Sys2Proof.Machine

-- ---------------------------------------------------------------- the checks of load_key

theorem loadKey_of_bad_length {k : List Nat} (hl : k.length ≠ 23) : loadKey k = .error .invalidKeyLength := by
  simp [loadKey, keyLen, hl]

theorem loadKey_of_bad_symbol {k : List Nat} (hl : k.length = 23) {a : Nat} (ha : a ∈ k) (hbad : ¬ a ≤ 1) :
    loadKey k = .error .invalidBitValue := by
  have hany : k.any (fun a => decide (1 < a)) = true := List.any_eq_true.2 ⟨a, ha, decide_eq_true (by omega)⟩
  simp [loadKey, keyLen, hl, hany]

/-- A key that loads is valid (R90). -/
theorem valid_of_loadKey {k : List Nat} {S : CipherState} (h : loadKey k = .ok S) : k.length = 23 ∧ ∀ a ∈ k, a ≤ 1 := by
  have hl : k.length = 23 := by
    by_contra hl
    cases (loadKey_of_bad_length hl).symm.trans h
  refine ⟨hl, fun a ha => ?_⟩
  by_contra hbad
  cases (loadKey_of_bad_symbol hl ha hbad).symm.trans h

-- ---------------------------------------------------------------- valid keys are key operands

theorem symbol_eq_toNat (b : Bit) : symbol b = b.toNat := by cases b <;> rfl

/-- Packing a bit sequence and unpacking it gives the sequence (R11). -/
theorem unpack_packFn (n : Nat) (f : Nat → Bit) : unpack (packFn n f) = (List.range n).map f :=
  List.map_congr_left fun i hi => by simp [List.mem_range.1 hi]

/-- Unpacking goes part by part, the upper part first (R11). -/
theorem unpack_append {n m : Nat} (a : BitVec n) (b : BitVec m) : unpack (a ++ b) = unpack a ++ unpack b := by
  simp only [unpack, List.range_add, List.map_append, List.map_map]
  congr 1
  · refine List.map_congr_left fun i hi => ?_
    simp [bit, BitVec.getMsbD_append, List.mem_range.1 hi]
  · refine List.map_congr_left fun i _ => ?_
    simp [bit, BitVec.getMsbD_append]

/-- Each valid key is the symbols of a key operand (R67, R90). -/
theorem exists_unpackKey_eq {k : List Nat} (hl : k.length = 23) (hb : ∀ a ∈ k, a ≤ 1) : ∃ key, unpackKey key = k := by
  refine ⟨packFn 23 (fun i => k.getD i 0 == 1), ?_⟩
  have hsym (a : Nat) (ha : a ≤ 1) : symbol (a == 1) = a := by
    obtain rfl | rfl := Nat.le_one_iff_eq_zero_or_eq_one.1 ha <;> rfl
  rw [unpackKey, unpack_packFn]
  refine List.ext_getElem (by simp [hl]) fun i _ hi => ?_
  simp [hi, hsym k[i] (hb _ (List.getElem_mem hi))]

-- ---------------------------------------------------------------- load_key and ST23 are inverse

/-- The symbols of ST23 are X, then Y, then Z (R43, R96). -/
theorem unpackKey_st23 (S : CipherState) :
    unpackKey (st23 S) = (unpack S.x ++ unpack S.y ++ unpack S.z).map (fun b => b.toNat) := by
  have h : unpack (st23 S) = unpack S.x ++ unpack S.y ++ unpack S.z := by
    rw [← unpack_append, ← unpack_append]; rfl
  rw [unpackKey, h, funext symbol_eq_toNat]

/-- Loading a key operand puts it into the registers bit for bit (R43, R91). -/
theorem st23_splitKey_unpackKey (key : BitVec 23) : st23 (splitKey (unpackKey key)) = key := by
  obtain ⟨hx, hy, hz⟩ := splitKey_unpackKey_bits key
  refine eq_of_bits fun i hi => ?_
  unfold st23
  simp only [bit, BitVec.getMsbD_append] at hx hy hz ⊢
  by_cases h6 : i < 6
  · simp [h6, hx, show ¬ 14 ≤ i by omega]
  by_cases h14 : i < 14
  · rw [if_neg (by omega), if_pos (by omega), hy _ (by omega), show 6 + (i - 6) = i by omega]
  · rw [if_pos (by omega), hz _ (by omega), show 14 + (i - (6 + 8)) = i by omega]

/-- The only key that loads `S` is the symbols of its ST23 (R96). -/
theorem loadKey_eq_ok_iff {k : List Nat} {S : CipherState} : loadKey k = .ok S ↔ k = unpackKey (st23 S) := by
  constructor
  · intro h
    obtain ⟨hl, hb⟩ := valid_of_loadKey h
    obtain ⟨key, rfl⟩ := exists_unpackKey_eq hl hb
    cases (loadKey_of_valid hl hb).symm.trans h
    rw [st23_splitKey_unpackKey]
  · rintro rfl
    rw [loadKey_of_valid (unpackKey_length _) (unpackKey_symbol _), st23_injective (st23_splitKey_unpackKey (st23 S))]

/-- Settles O12: the one key of `S` is the symbols of its ST23, by `loadKey_eq_ok_iff`. -/
theorem loadKeyIsABijection : Obligations.LoadKeyIsABijection := by
  refine fun S => ⟨⟨unpackKey (st23 S), ⟨unpackKey_length _, ?_, loadKey_eq_ok_iff.2 rfl⟩, ?_⟩, fun k h => ?_⟩
  · exact fun a ha => Nat.le_one_iff_eq_zero_or_eq_one.1 (unpackKey_symbol _ a ha)
  · rintro k ⟨-, -, h⟩
    exact loadKey_eq_ok_iff.1 h
  · rw [loadKey_eq_ok_iff.1 h, unpackKey_st23]

/-- Settles O11: one lemma per error; a valid key is a key operand, whose parts `splitKey_unpackKey_bits` gives. -/
theorem loadKeyChecksThenSplits : Obligations.LoadKeyChecksThenSplits := by
  refine ⟨fun k hl => loadKey_of_bad_length hl, ?_, fun k hl hb => ?_⟩
  · rintro k hl ⟨a, ha, h0, h1⟩
    exact loadKey_of_bad_symbol hl ha (by omega)
  · have hb : ∀ a ∈ k, a ≤ 1 := fun a ha => Nat.le_one_iff_eq_zero_or_eq_one.2 (hb a ha)
    obtain ⟨key, rfl⟩ := exists_unpackKey_eq hl hb
    obtain ⟨hx, hy, hz⟩ := splitKey_unpackKey_bits key
    have get (i : Nat) (hi : i < 23) : (unpackKey key)[i]? = some (bit key i).toNat := by
      rw [unpackKey_getElem? key hi, symbol_eq_toNat]
    refine ⟨_, loadKey_of_valid hl hb, fun i hi => ?_, fun i hi => ?_, fun i hi => ?_⟩
    · rw [hx i hi, get i (by omega)]
    · rw [hy i hi, get (6 + i) (by omega)]
    · rw [hz i hi, get (14 + i) (by omega)]

-- ---------------------------------------------------------------- the command

/-- The answer of a successful `LOADKEY` or `RDINIT` as a response word (R43, R72). -/
theorem respondWord_st23 (S : CipherState) : respondWord okCode ((st23 S).zeroExtend 56) = (st23 S).zeroExtend 64 := by
  simp [respondWord_ok]

/-- Settles O14: the state `LOADKEY` leaves is `afterLoadkey`, and its ST23 is the key. -/
theorem loadkeyAnswersTheKeyItself : Obligations.LoadkeyAnswersTheKeyItself := by
  intro s cap key
  have hkey := st23_splitKey_unpackKey key
  refine ⟨s.afterLoadkey cap key, _, exec_loadkey_of_length cap key s, rfl, hkey, ?_⟩
  rw [State.afterLoadkey_outbox, respondWord_st23, hkey]

/-- Settles O13: the two outcomes of `LOADKEY`, field by field. -/
theorem loadkeyCommand : Obligations.LoadkeyCommand := by
  refine fun s cap key => ⟨fun klen hk => exec_loadkey_of_bad_length cap key s hk, splitKey (unpackKey key),
    loadKey_of_valid (unpackKey_length key) (unpackKey_symbol key), ?_⟩
  rw [exec_loadkey_of_length, ← respondWord_st23]
  rfl

-- ---------------------------------------------------------------- the all-zero key

/-- The state of the all-zero key (R95). -/
def zeroState : CipherState := { x := 0, y := 0, z := 0 }

@[simp] theorem bit_zero (n i : Nat) : bit (0#n) i = false := BitVec.getMsbD_zero

/-- One more tap adds its bit (R110). -/
theorem feedback_cons {n : Nat} (i : Nat) (taps : List Nat) (r : BitVec n) :
    feedback (i :: taps) r = (bit r i ^^ feedback taps r) := rfl

/-- No tap set feeds a 1 from an all-zero register (R110). -/
theorem feedback_zero (n : Nat) (taps : List Nat) : feedback taps (0#n) = false := by
  induction taps with
  | nil => rfl
  | cons i taps ih => simp [feedback_cons, ih]

theorem rotate_zero (n : Nat) (taps : List Nat) : rotate taps (0#n) = 0#n := by
  refine eq_of_bits fun i hi => ?_
  cases i with
  | zero => simp [rotate, feedback_zero]
  | succ i => rw [bit_rotate_succ taps _ i hi, bit_zero, bit_zero]

@[simp] theorem cipherStep_zeroState (p : Params) (d : Bit) : (cipherStep p zeroState d).1 = zeroState := by
  simp [cipherStep, clock, zeroState, rotX, rotY, rotZ, rotate_zero]

/-- From the all-zero state the keystream bit is 0 (R95, R132). -/
@[simp] theorem cipherStep_zeroState_o (p : Params) (d : Bit) : (cipherStep p zeroState d).2.o = d := by
  have hks : ks zeroState = false := rfl
  have ho : (cipherStep p zeroState d).2.o = (d ^^ ks (cipherStep p zeroState d).1) := rfl
  rw [ho, cipherStep_zeroState, hks, Bool.xor_false]

/-- Settles O23, by induction on the data. -/
theorem allZeroKeyLeavesDataAsItIs : Obligations.AllZeroKeyLeavesDataAsItIs := by
  intro p D cap
  change (runSteps p zeroState D).2.map (fun r => r.o) = D ∧ (runSteps p zeroState D).1 = zeroState
  induction D with
  | nil => exact ⟨rfl, rfl⟩
  | cons d ds ih =>
    obtain ⟨hout, hstate⟩ := ih
    simp [runSteps, hout, hstate]

end Sys2Proof.Machine
end

section
/-! PROOFS. Clock control (41_majority_clock_control.md): the majority of three bits, the rotate decision, and how many
registers a step rotates. The case split below is whether the second and the third bit agree: `maj_agree` and `maj_differ`
give the majority. -/

namespace Sys2Proof.Machine

-- ---------------------------------------------------------------- the majority

theorem maj_swap_left (a b c : Bit) : maj a b c = maj b a c := by
  unfold maj
  rw [Bool.and_comm a b, Bool.or_assoc, Bool.or_assoc, Bool.or_comm (a && c)]

theorem maj_swap_right (a b c : Bit) : maj a b c = maj a c b := by
  unfold maj
  rw [Bool.and_comm b c, Bool.or_comm (a && b)]

/-- Two bits that agree are the majority, whatever the third is (R101). -/
@[simp] theorem maj_agree (a b : Bit) : maj a b b = b := by
  cases a <;> simp [maj]

/-- Where two bits differ, the third decides the majority (R101). -/
@[simp] theorem maj_differ (a b : Bit) : maj a b (!b) = a := by
  cases b <;> simp [maj]

theorem maj_not (a b c : Bit) : maj (!a) (!b) (!c) = !(maj a b c) := by
  obtain rfl | rfl := Bool.eq_or_eq_not c b
  · simp only [maj_agree]
  · simp only [maj_differ]

theorem maj_eq_true_iff (a b c : Bit) : maj a b c = true ↔ 2 ≤ a.toNat + b.toNat + c.toNat := by
  obtain rfl | rfl := Bool.eq_or_eq_not c b
  · rw [maj_agree]
    cases a <;> cases c <;> decide
  · rw [maj_differ]
    cases a <;> cases b <;> decide

/-- Settles O15: one lemma per clause. -/
theorem majorityIsTwoOfThree : Obligations.MajorityIsTwoOfThree :=
  fun a b c => ⟨maj_eq_true_iff a b c, maj_swap_left a b c, maj_swap_right a b c, maj_not a b c⟩

-- ---------------------------------------------------------------- the rotate decision

/-- The control bits by their positions in the registers (R100). -/
theorem ctrl_eq (S : CipherState) : ctrl S = (S.x.getMsbD 1, S.y.getMsbD 3, S.z.getMsbD 3) := rfl

/-- Settles O16: each flag compares a control bit of `ctrl_eq` with the majority. -/
theorem rotateDecisionReadsControlBits : Obligations.RotateDecisionReadsControlBits := by
  intro S
  simp only [rotEn, ctrl_eq, beq_iff_eq, and_self]

-- ---------------------------------------------------------------- how many registers rotate

/-- A bit is not the majority iff the two others agree and it differs from them (R103). -/
theorem beq_maj_eq_false_iff (a b c : Bit) : (a == maj a b c) = false ↔ b = c ∧ a ≠ b := by
  obtain rfl | rfl := Bool.eq_or_eq_not c b
  · simp [maj_agree]
  · simp [maj_differ]

/-- Two or three of three bits are the majority (R103). -/
theorem count_beq_maj (a b c : Bit) :
    let n := (a == maj a b c).toNat + (b == maj a b c).toNat + (c == maj a b c).toNat
    n = 2 ∨ n = 3 := by
  obtain rfl | rfl := Bool.eq_or_eq_not c b
  · rw [maj_agree]
    cases a <;> cases c <;> decide
  · rw [maj_differ]
    cases a <;> cases b <;> decide

section
variable {p : Params} {r : StepRecord} (h : RecordOk p r)
include h

theorem RecordOk.count_flags :
    r.rx.toNat + r.ry.toNat + r.rz.toNat = 2 ∨ r.rx.toNat + r.ry.toNat + r.rz.toNat = 3 := by
  rw [h.flagX, h.flagY, h.flagZ, h.majority]
  exact count_beq_maj r.cx r.cy r.cz

theorem RecordOk.rx_eq_false_iff : r.rx = false ↔ r.cy = r.cz ∧ r.cx ≠ r.cy := by
  rw [h.flagX, h.majority, beq_maj_eq_false_iff]

theorem RecordOk.ry_eq_false_iff : r.ry = false ↔ r.cx = r.cz ∧ r.cy ≠ r.cx := by
  rw [h.flagY, h.majority, maj_swap_left, beq_maj_eq_false_iff]

theorem RecordOk.rz_eq_false_iff : r.rz = false ↔ r.cx = r.cy ∧ r.cz ≠ r.cx := by
  rw [h.flagZ, h.majority, maj_swap_right, maj_swap_left, beq_maj_eq_false_iff]

end

/-- Settles O17: a step's record meets the field equations, from which the count and the held register follow. -/
theorem twoOrThreeRegistersRotate : Obligations.TwoOrThreeRegistersRotate := by
  intro p S d
  have h := recordOk_cipherStep p S d
  exact ⟨h.count_flags, h.rx_eq_false_iff, h.ry_eq_false_iff, h.rz_eq_false_iff⟩

end Sys2Proof.Machine
end

section
/-! PROOFS. Rotation with feedback (42_rotation_feedback.md): the feedback bit as a parity, the bits after a rotation, the
default taps, the selection by the clock, and the bijection of R118. The idea of the last: a tap set without repeats that
holds the last index feeds the dropped bit into the vacated end exactly once, so the rotated register still fixes it. -/

namespace Sys2Proof.Machine

-- ---------------------------------------------------------------- the feedback bit

@[simp] theorem feedback_nil {n : Nat} (r : BitVec n) : feedback [] r = false := rfl

/-- One more 1 turns the parity over. -/
theorem decide_succ_odd (k : Nat) : decide ((k + 1) % 2 = 1) = !decide (k % 2 = 1) := by
  rw [← decide_not, decide_eq_decide]
  omega

theorem feedback_eq_parity {n : Nat} (taps : List Nat) (r : BitVec n) :
    feedback taps r = decide ((taps.filter (bit r)).length % 2 = 1) := by
  induction taps with
  | nil => rfl
  | cons i taps ih =>
    rw [feedback_cons, ih]
    cases hbit : bit r i with
    | false => rw [List.filter_cons_of_neg (by simp [hbit]), Bool.false_xor]
    | true => rw [List.filter_cons_of_pos hbit, List.length_cons, decide_succ_odd, Bool.true_xor]

/-- Settles O19, by induction on the tap list. -/
theorem feedbackIsTheParityOfTheTapBits : Obligations.FeedbackIsTheParityOfTheTapBits :=
  fun n taps => ⟨fun r => feedback_eq_parity taps r, feedback_zero n taps⟩

/-- The feedback reads its register at the taps only (R110). -/
theorem feedback_congr {n : Nat} {taps : List Nat} {a b : BitVec n} (h : ∀ i ∈ taps, bit a i = bit b i) :
    feedback taps a = feedback taps b := by
  induction taps with
  | nil => rfl
  | cons i taps ih =>
    obtain ⟨hi, htaps⟩ := List.forall_mem_cons.1 h
    rw [feedback_cons, feedback_cons, hi, ih htaps]

/-- A tap set is a set: the order of its list does not matter (R8, R110). -/
theorem feedback_perm {n : Nat} {taps taps' : List Nat} (h : taps.Perm taps') (r : BitVec n) :
    feedback taps r = feedback taps' r :=
  h.foldr_eq' (fun i _ j _ _ => Bool.xor_left_comm (bit r j) (bit r i) _) false

theorem feedback_erase {n i : Nat} {taps : List Nat} (h : i ∈ taps) (r : BitVec n) :
    feedback taps r = (bit r i ^^ feedback (taps.erase i) r) := by
  rw [feedback_perm (List.perm_cons_erase h), feedback_cons]

-- ---------------------------------------------------------------- the rotated register

/-- Settles O18: the bits of a rotated register, by `bit_rotate_zero` and `bit_rotate_succ`. -/
theorem rotationMovesBitsOneIndexUp : Obligations.RotationMovesBitsOneIndexUp := fun p =>
  ⟨fun x => ⟨bit_rotate_zero p.tapsX x, fun i hi => bit_rotate_succ p.tapsX x i (Nat.succ_lt_succ hi)⟩,
   fun y => ⟨bit_rotate_zero p.tapsY y, fun i hi => bit_rotate_succ p.tapsY y i (Nat.succ_lt_succ hi)⟩,
   fun z => ⟨bit_rotate_zero p.tapsZ z, fun i hi => bit_rotate_succ p.tapsZ z i (Nat.succ_lt_succ hi)⟩⟩

theorem engineParams_legal : engineParams.legal = true := by decide

/-- Settles O20: the bit at index 0 is the feedback bit, and `feedback_cons` takes the default taps one by one. -/
theorem defaultTapsFeedTheseBits : Obligations.DefaultTapsFeedTheseBits := by
  refine ⟨engineParams_legal, fun x => ?_, fun y => ?_, fun z => ?_⟩
  · rw [rotX, bit_rotate_zero]
    simp [engineParams, feedback_cons]
  · rw [rotY, bit_rotate_zero]
    simp [engineParams, feedback_cons]
  · rw [rotZ, bit_rotate_zero]
    simp [engineParams, feedback_cons]

/-- Settles O22: `clock` chooses each register by its own flag of `rotEn`. -/
theorem clockRotatesOnlyTheSelectedRegisters : Obligations.ClockRotatesOnlyTheSelectedRegisters := fun _ _ =>
  ⟨rfl, fun h => if_pos h, fun h => if_neg (Bool.eq_false_iff.1 h), fun h => if_pos h,
    fun h => if_neg (Bool.eq_false_iff.1 h), fun h => if_pos h, fun h => if_neg (Bool.eq_false_iff.1 h)⟩

-- ---------------------------------------------------------------- the bijection

theorem nodup_of_tapSetLegal {len : Nat} {taps : List Nat} (h : tapSetLegal len taps = true) : taps.Nodup := by
  obtain ⟨-, hnodup⟩ := (Bool.and_eq_true _ _).mp h
  exact of_decide_eq_true hnodup

/-- The bits that move up tell all bits but the last; the feedback bit then tells the last. -/
theorem rotate_injective {n : Nat} {taps : List Nat} (hnodup : taps.Nodup) (hlast : n ∈ taps) :
    Function.Injective (rotate taps : BitVec (n + 1) → BitVec (n + 1)) := by
  intro a b hab
  have hmoved : ∀ i, i < n → bit a i = bit b i := fun i hi => by
    rw [← bit_rotate_succ taps a i (Nat.succ_lt_succ hi), hab, bit_rotate_succ taps b i (Nat.succ_lt_succ hi)]
  have hothers : feedback (taps.erase n) a = feedback (taps.erase n) b := feedback_congr fun i hi => by
    obtain ⟨hne, -⟩ := hnodup.mem_erase_iff.1 hi
    obtain hlt | hgt := Nat.lt_or_gt_of_ne hne
    · exact hmoved i hlt
    · rw [bit_ge a hgt, bit_ge b hgt]
  have hdropped : bit a n = bit b n := by
    have hfed : feedback taps a = feedback taps b := by
      rw [← bit_rotate_zero taps a, hab, bit_rotate_zero]
    rwa [feedback_erase hlast, feedback_erase hlast, hothers, Bool.xor_left_inj] at hfed
  refine eq_of_bits fun i hi => ?_
  obtain hlt | rfl := Nat.lt_succ_iff_lt_or_eq.1 hi
  · exact hmoved i hlt
  · exact hdropped

/-- A register has finitely many values, so the injective rotation is bijective (R118). -/
theorem rotate_bijective {n : Nat} {taps : List Nat} (h : tapSetLegal (n + 1) taps = true) (hlast : n ∈ taps) :
    Function.Bijective (rotate taps : BitVec (n + 1) → BitVec (n + 1)) :=
  Finite.injective_iff_bijective.1 (rotate_injective (nodup_of_tapSetLegal h) hlast)

theorem params_legal_iff {p : Params} :
    p.legal = true ↔
      tapSetLegal 6 p.tapsX = true ∧ tapSetLegal 8 p.tapsY = true ∧ tapSetLegal 9 p.tapsZ = true := by
  simp only [Params.legal, Bool.and_eq_true, and_assoc]

theorem rotations_bijective (p : Params) (h : p.legal = true) :
    (5 ∈ p.tapsX → Function.Bijective (rotX p)) ∧
    (7 ∈ p.tapsY → Function.Bijective (rotY p)) ∧
    (8 ∈ p.tapsZ → Function.Bijective (rotZ p)) := by
  obtain ⟨hx, hy, hz⟩ := params_legal_iff.1 h
  exact ⟨rotate_bijective hx, rotate_bijective hy, rotate_bijective hz⟩

/-- Settles O21: each default tap set is legal and holds its register's last index. -/
theorem rotationWithLastTapIsABijection : Obligations.RotationWithLastTapIsABijection := by
  obtain ⟨hx, hy, hz⟩ := rotations_bijective engineParams engineParams_legal
  exact ⟨rotations_bijective, hx (by decide), hy (by decide), hz (by decide)⟩

end Sys2Proof.Machine
end

section
/-! PROOFS. The keystream bit and the single step (43_keystream_step.md): what fixes a record, what the keystream bit reads,
and the `STEP` command. The idea for the keystream bit: an output position is the last index of its register, so after the
clock it holds its old bit or, rotated, the bit one index below, and never the feedback bit. -/

namespace Sys2Proof.Machine

-- ---------------------------------------------------------------- the single step

/-- Settles O24: the values of a step's record are the field equations that `recordOk_cipherStep` gives. -/
theorem singleStepFunction : Obligations.SingleStepFunction := by
  intro p S d
  have h := recordOk_cipherStep p S d
  exact ⟨h.control, h.majority, Prod.ext h.flagX (Prod.ext h.flagY h.flagZ), h.postX, h.postY, h.postZ,
    cipherStep_pre p S d, cipherStep_post p S d, h.keystreamBit, rfl, h.outputBit⟩

/-- A step with another data bit: only `d` and `o` of the record are other (R132). -/
theorem cipherStep_change_data (p : Params) (S : CipherState) (d e : Bit) :
    cipherStep p S e =
      ((cipherStep p S d).1, { (cipherStep p S d).2 with d := e, o := e ^^ (cipherStep p S d).2.s }) := rfl

/-- Settles O26, by `cipherStep_change_data`: with the data bit 0 the output is the keystream bit, with 1 its complement. -/
theorem dataBitNeverReachesTheState : Obligations.DataBitNeverReachesTheState := by
  intro p S
  have ho : (cipherStep p S false).2.o = (cipherStep p S false).2.s := Bool.false_xor _
  rw [cipherStep_change_data p S false true, ho, Bool.true_xor]
  exact ⟨rfl, rfl⟩

-- ---------------------------------------------------------------- what fixes a record

/-- The field equations fix the decision and the state after the clock (R115, R129). -/
theorem RecordOk.clock_eq {p : Params} {r : StepRecord} (h : RecordOk p r) :
    clock p r.pre = (r.post, { m := r.m, rx := r.rx, ry := r.ry, rz := r.rz }) := by
  have hdec : rotEn r.pre = { m := r.m, rx := r.rx, ry := r.ry, rz := r.rz } := by
    rw [h.flagX, h.flagY, h.flagZ, h.majority, rotEn, ← h.control]
  rw [clock, hdec, ← h.postX, ← h.postY, ← h.postZ]

/-- The field equations leave only `pre` and `d` free (R129). -/
theorem RecordOk.eq_cipherStep {p : Params} {r : StepRecord} (h : RecordOk p r) : r = (cipherStep p r.pre r.d).2 := by
  rw [cipherStep, h.clock_eq, ← h.control, ← h.keystreamBit, ← h.outputBit]

/-- Settles O25: the equations fix the record, and a step's record meets them. -/
theorem recordIsFixedByStateAndDataBit : Obligations.RecordIsFixedByStateAndDataBit := by
  intro p r
  refine ⟨RecordOk.eq_cipherStep, fun h => ?_⟩
  rw [h]
  exact recordOk_cipherStep p r.pre r.d

-- ---------------------------------------------------------------- what the keystream bit reads

/-- A position above index 0 of a register that is rotated or held. -/
theorem bit_rotate_or_hold {n : Nat} (rotates : Bit) (taps : List Nat) (r : BitVec n) {i : Nat} (h : i + 1 < n) :
    bit (if rotates then rotate taps r else r) (i + 1) = if rotates then bit r i else bit r (i + 1) := by
  cases rotates with
  | false => rfl
  | true => exact bit_rotate_succ taps r i h

/-- The keystream bit from the state before the clock: each register gives one of its last two bits (R125, R126). -/
theorem ks_clock (p : Params) (S : CipherState) :
    ks (clock p S).1 =
      ((if (rotEn S).rx then bit S.x 4 else bit S.x 5) ^^ (if (rotEn S).ry then bit S.y 6 else bit S.y 7) ^^
        (if (rotEn S).rz then bit S.z 7 else bit S.z 8)) := by
  have hx := bit_rotate_or_hold (rotEn S).rx p.tapsX S.x (i := 4) (by decide)
  have hy := bit_rotate_or_hold (rotEn S).ry p.tapsY S.y (i := 6) (by decide)
  have hz := bit_rotate_or_hold (rotEn S).rz p.tapsZ S.z (i := 7) (by decide)
  rw [← hx, ← hy, ← hz]
  rfl

/-- The rotate decision reads the control bits only (R102). -/
theorem rotEn_congr {S T : CipherState} (h : ctrl S = ctrl T) : rotEn S = rotEn T := by
  rw [rotEn, rotEn, h]

/-- Settles O27: `ks_clock` reads the last two bits of each register and the decision, which reads the control bits. -/
theorem keystreamBitReadsNinePositions : Obligations.KeystreamBitReadsNinePositions := by
  intro p q S T d hx1 hx4 hx5 hy3 hy6 hy7 hz3 hz7 hz8
  have hctrl : ctrl S = ctrl T := Prod.ext hx1 (Prod.ext hy3 hz3)
  have hs : (cipherStep p S d).2.s = (cipherStep q T d).2.s := calc
    (cipherStep p S d).2.s = ks (clock p S).1 := rfl
    _ = ks (clock q T).1 := by rw [ks_clock, ks_clock, rotEn_congr hctrl, hx4, hx5, hy6, hy7, hz7, hz8]
    _ = (cipherStep q T d).2.s := rfl
  exact ⟨hs, congrArg (d ^^ ·) hs⟩

-- ---------------------------------------------------------------- the command

/-- `STEP` without a key or without a CipherState (R130, log 8). -/
theorem exec_step_of_no_key {s : State} (d : Bit) (h : s.loaded = false ∨ s.regs = none) :
    exec (.step d) s = .next (s.raise .noKeyLoaded) := by
  obtain hl | hr := h
  · simp [exec, execStep, stepCommand, hl]
  · simp [exec, execStep, stepCommand, hr]

/-- The answer of a command that needs a key (R70, R72). -/
theorem errorWord_noKeyLoaded : errorWord .noKeyLoaded = 0xA000000000000000#64 := by decide

/-- Settles O28: the error without a key; with a key the fields of `afterStep`. -/
theorem stepCommand_effect : Obligations.StepCommand := by
  intro s d
  refine ⟨fun hl => ?_, fun S hl hr => ?_⟩
  · rw [exec_step_of_no_key d (.inl hl), ← errorWord_noKeyLoaded]
    rfl
  · rw [exec_step_of_key d hl hr, ← respondWord_ok]
    exact congrArg _ (by apply State.ext_fields <;> simp)

end Sys2Proof.Machine
end

section
/-! PROOFS. Streams, sessions and the trace (44_stream_processing_trace.md). The loop of `process` gives exactly the
consistent traces: its records with its start and end state meet R31, and a consistent trace is what the loop computes from
its data bits. The rules on streams follow from the field equations of the records; a session at the port is the loop taken
one command at a time. -/

namespace Sys2Proof.Machine

-- ---------------------------------------------------------------- the loop of process and consistent traces

/-- Without its oldest record a consistent trace is consistent from the state that record left (R31). -/
theorem TraceConsistent.tail {p : Params} {S0 S : CipherState} {r : StepRecord} {rs : List StepRecord}
    (h : TraceConsistent p S0 (r :: rs) S) : TraceConsistent p r.post rs S where
  first := fun a ha => h.chain 0 r a rfl ha
  chain := fun i => h.chain (i + 1)
  last := by
    intro a ha
    have hlen : rs.length - 1 < rs.length := (List.getElem?_eq_some_iff.1 ha).1
    refine h.last a ?_
    rw [List.length_cons, show rs.length + 1 - 1 = rs.length - 1 + 1 by omega, List.getElem?_cons_succ, ha]
  empty := fun hlen => h.last r (by simp [hlen])
  records := fun a ha => h.records a (List.mem_cons_of_mem r ha)

/-- A correct record in front of a trace that is consistent from the state it left (R31). -/
theorem TraceConsistent.cons {p : Params} {S : CipherState} {r : StepRecord} {rs : List StepRecord} (hr : RecordOk p r)
    (h : TraceConsistent p r.post rs S) : TraceConsistent p r.pre (r :: rs) S where
  first := by
    rintro a ⟨⟩
    rfl
  chain := by
    intro i a b ha hb
    cases i with
    | zero => cases ha; exact h.first b hb
    | succ i => exact h.chain i a b ha hb
  last := by
    intro a ha
    cases rs with
    | nil => cases ha; exact h.empty rfl
    | cons b bs => exact h.last a ha
  empty := by simp
  records := List.forall_mem_cons.2 ⟨hr, h.records⟩

section
variable (p : Params) (S : CipherState) (D : List Bit)

/-- The loop's records are a consistent trace from its first to its last state (R31, R140). -/
theorem traceConsistent_runSteps : TraceConsistent p S (runSteps p S D).2 (runSteps p S D).1 := by
  induction D generalizing S with
  | nil => exact traceConsistent_nil p S
  | cons d ds ih => exact (ih _).cons (recordOk_cipherStep p S d)

/-- The records keep the data bits. -/
@[simp] theorem runSteps_data : (runSteps p S D).2.map (fun r => r.d) = D := by
  induction D generalizing S with
  | nil => rfl
  | cons d ds ih => exact congrArg (d :: ·) (ih _)

@[simp] theorem process_output_length (cap : Bit) :
    (process p S D cap).1.length = D.length := by
  simp [process]

theorem runSteps_append (E : List Bit) :
    runSteps p S (D ++ E) =
      ((runSteps p (runSteps p S D).1 E).1, (runSteps p S D).2 ++ (runSteps p (runSteps p S D).1 E).2) := by
  induction D generalizing S with
  | nil => rfl
  | cons d ds ih => simp [runSteps, ih]

end

/-- Settles O54, by induction on the records: the field equations make each one the step from its `pre`, and the rest is a
consistent trace from its `post`. -/
theorem traceIsReconstructible : Obligations.TraceIsReconstructible := by
  intro p S0 S recs h
  induction recs generalizing S0 with
  | nil => cases h.empty rfl; rfl
  | cons r rs ih =>
    obtain rfl : r.pre = S0 := h.first r rfl
    have hr : r = (cipherStep p r.pre r.d).2 := (h.records r List.mem_cons_self).eq_cipherStep
    have hpost : (cipherStep p r.pre r.d).1 = r.post := by rw [← cipherStep_post, ← hr]
    rw [List.map_cons, runSteps, ← hr, hpost, ih _ h.tail]

/-- Settles O51: the records of the loop are consistent and keep the data bits, so record `i` is the step on data bit `i`. -/
theorem processTakesOneStepPerDataBit : Obligations.ProcessTakesOneStepPerDataBit := by
  intro p S0
  refine ⟨rfl, rfl, process_output_length p S0, fun D => ⟨rfl, (runSteps p S0 D).2, rfl, rfl, by simp, ?_⟩⟩
  intro i d hd
  have h := traceConsistent_runSteps p S0 D
  rw [← runSteps_data p S0 D, List.getElem?_map, Option.map_eq_some_iff] at hd
  obtain ⟨r, hr, rfl⟩ := hd
  refine ⟨r.pre, ?_, ?_, fun a hi ha => h.chain (i - 1) a r ha (by rwa [Nat.sub_add_cancel hi])⟩
  · rw [← (h.records r (List.mem_of_getElem? hr)).eq_cipherStep, hr]
  · rintro rfl
    exact h.first r hr

-- ---------------------------------------------------------------- the keystream

/-- The keystream bits do not depend on the data (R143). -/
theorem runSteps_keystream (p : Params) (S : CipherState) (D : List Bit) :
    (runSteps p S D).2.map (fun r => r.s) = keystream p S D.length := by
  induction D generalizing S with
  | nil => rfl
  | cons d ds ih => exact congrArg (ks (cipherStep p S d).1 :: ·) (ih _)

@[simp] theorem keystream_length (p : Params) (S : CipherState) (n : Nat) : (keystream p S n).length = n := by
  simp [keystream]

/-- The output bit of every record of the loop (R128). -/
theorem outputBit_of_mem_runSteps {p : Params} {S : CipherState} {D : List Bit} {r : StepRecord}
    (hr : r ∈ (runSteps p S D).2) : r.o = (r.d ^^ r.s) :=
  ((traceConsistent_runSteps p S D).records r hr).outputBit

/-- The output is the data XOR the keystream (R143). -/
theorem process_output (p : Params) (S : CipherState) (D : List Bit) (cap : Bit) :
    (process p S D cap).1 = List.zipWith (fun d s => d ^^ s) D (keystream p S D.length) := calc
  (process p S D cap).1 = (runSteps p S D).2.map (fun r => r.d ^^ r.s) :=
    List.map_congr_left fun _ hr => outputBit_of_mem_runSteps hr
  _ = List.zipWith (fun d s => d ^^ s) ((runSteps p S D).2.map (fun r => r.d)) ((runSteps p S D).2.map (fun r => r.s)) := by
    rw [List.zipWith_map, List.zipWith_self]
  _ = List.zipWith (fun d s => d ^^ s) D (keystream p S D.length) := by rw [runSteps_data, runSteps_keystream]

/-- Settles O52: on zeros every output bit is the keystream bit of its record. -/
theorem outputIsDataXorKeystream : Obligations.OutputIsDataXorKeystream := by
  refine fun p S0 D cap => ⟨runSteps_keystream p S0 D, process_output p S0 D cap, List.map_congr_left fun r hr => ?_⟩
  have hd : r.d ∈ List.replicate D.length false := by
    rw [← runSteps_data p S0 (List.replicate D.length false)]
    exact List.mem_map_of_mem hr
  rw [outputBit_of_mem_runSteps hr, List.eq_of_mem_replicate hd, Bool.false_xor]

/-- XOR with the same bits twice gives the data back. -/
theorem zipWith_xor_zipWith_xor {D K : List Bit} (h : K.length = D.length) :
    List.zipWith (fun d s => d ^^ s) (List.zipWith (fun d s => d ^^ s) D K) K = D :=
  List.ext_getElem (by simp [h]) fun i _ _ => by simp

/-- Processing the output from the same state gives the data back (R144). -/
theorem process_process (p : Params) (S : CipherState) (D : List Bit) (cap cap' : Bit) :
    (process p S (process p S D cap).1 cap').1 = D := by
  rw [process_output p S _ cap', process_output_length, process_output p S D cap, zipWith_xor_zipWith_xor (by simp)]

/-- `encrypt` is `process` from the state that the key loads (R141). -/
theorem encrypt_eq_ok_iff {p : Params} {K : List Nat} {D : List Bit} {cap : Bit} {res : List Bit × Option Trace} :
    encrypt p K D cap = .ok res ↔ ∃ S0, loadKey K = .ok S0 ∧ process p S0 D cap = res := by
  unfold encrypt
  cases loadKey K <;> simp

/-- Settles O53, by `process_process`: both directions run from the one state that the key loads. -/
theorem decryptUndoesEncrypt : Obligations.DecryptUndoesEncrypt := by
  refine ⟨fun p K S0 D cap cap' _ => process_process p S0 D cap cap', fun p K D C cap cap' tr h => ?_⟩
  obtain ⟨S0, hK, hout⟩ := encrypt_eq_ok_iff.1 h
  obtain rfl : (process p S0 D cap).1 = C := congrArg Prod.fst hout
  exact ⟨_, encrypt_eq_ok_iff.2 ⟨S0, hK, Prod.ext (process_process p S0 D cap cap') rfl⟩⟩

-- ---------------------------------------------------------------- capture

/-- Settles O47: the outcome of `STEP` is chosen by `LOADED` and the registers, that of `LOADKEY` by `klen`. -/
theorem captureNeverChangesOutputs : Obligations.CaptureNeverChangesOutputs := by
  refine ⟨fun s t d hl hr => ?_, fun s t klen key hr => ?_⟩
  · obtain ⟨S, hls, hrs, -, hx⟩ | ⟨-, -, hfull, -⟩ | ⟨hn, hx⟩ := stepCommand_cases engineParams d s
    · exact ⟨_, _, _, hx, exec_step_of_key d (hl ▸ hls) (hr ▸ hrs), by simp, State.afterStep_outbox _ S d s,
        State.afterStep_outbox _ S d t⟩
    · simp at hfull
    · exact ⟨_, _, _, hx, exec_step_of_no_key d (by rwa [← hl, ← hr]), hr, rfl, rfl⟩
  · by_cases hk : klen = 23
    · subst hk
      exact ⟨_, _, _, exec_loadkey_of_length true key s, exec_loadkey_of_length false key t, rfl, rfl, rfl⟩
    · exact ⟨_, _, _, exec_loadkey_of_bad_length true key s hk, exec_loadkey_of_bad_length false key t hk, hr, rfl, rfl⟩

-- ---------------------------------------------------------------- a session at the port

/-- A session, with or without capture (a `Recording` is one with it): it started at `S0`, has taken the steps `recs`,
and stands at `S` (R26, R27, R29). -/
structure InSession (s : State) (cap : Bit) (S0 S : CipherState) (recs : List StepRecord) : Prop where
  loaded : s.loaded = true
  cap_eq : s.cap = cap
  regs : s.regs = some S
  init : s.init = if cap then some S0 else none
  trace : s.trace = if cap then some recs else none

theorem inSession_afterLoadkey (cap : Bit) (key : BitVec 23) (s : State) :
    InSession (s.afterLoadkey cap key) cap (splitKey (unpackKey key)) (splitKey (unpackKey key)) [] :=
  ⟨rfl, rfl, rfl, rfl, rfl⟩

theorem stepData_cons (i : Instr) (cmds : List Instr) : stepData (i :: cmds) = stepData [i] ++ stepData cmds := by
  cases i <;> rfl

theorem stepOutputs_cons (i : Instr) (cmds : List Instr) (r : RspWord) (rs : List RspWord) :
    stepOutputs (i :: cmds) (r :: rs) = stepOutputs [i] [r] ++ stepOutputs cmds rs := by
  cases i <;> rfl

/-- A command that is no `STEP` carries no data bit and answers no output bit (R71). -/
theorem stepData_stepOutputs_of_not_step {i : Instr} (h : ∀ d, i ≠ .step d) (r : RspWord) :
    stepData [i] = [] ∧ stepOutputs [i] [r] = [] := by
  cases i with
  | step d => exact absurd rfl (h d)
  | loadkey | rdinit | rdtrace | rdstat => exact ⟨rfl, rfl⟩

section
variable {s : State} {cap : Bit} {S0 S : CipherState} {recs : List StepRecord}

/-- A session is a fact about the engine's own state. -/
theorem InSession.of_sameEngine {t : State} (hs : InSession s cap S0 S recs) (h : t.sameEngine s) :
    InSession t cap S0 S recs := by
  obtain ⟨hl, hc, hr, hi, ht⟩ := h
  exact ⟨hl.trans hs.loaded, hc.trans hs.cap_eq, hr.trans hs.regs, hi.trans hs.init, ht.trans hs.trace⟩

/-- A `STEP` takes one step and, with capture, keeps its record (R130). -/
theorem InSession.afterStep (hs : InSession s cap S0 S recs) (p : Params) (d : Bit) :
    InSession (s.afterStep p S d) cap S0 (cipherStep p S d).1 (recs ++ [(cipherStep p S d).2]) where
  loaded := by simp [hs.loaded]
  cap_eq := by simp [hs.cap_eq]
  regs := by simp
  init := by simp [hs.init]
  trace := by cases cap <;> simp [hs.cap_eq, hs.trace]

/-- In a session a command that starts no other one is answered once, takes the steps of its data bits (one for a `STEP`,
else none) and answers their output bits (R130, R146). -/
theorem exec_of_session (hs : InSession s cap S0 S recs) {i : Instr} (hi : startsSession i = false) :
    ∃ t r, exec i s = .next t ∧ t.inbox = s.inbox ∧ t.outbox = s.outbox ++ [r] ∧
      InSession t cap S0 (runSteps engineParams S (stepData [i])).1 (recs ++ (runSteps engineParams S (stepData [i])).2) ∧
      stepOutputs [i] [r] = (runSteps engineParams S (stepData [i])).2.map (fun a => a.o) := by
  obtain ⟨t, hx, hti, r, hto, -⟩ := exec_answeredOnce i s
  refine ⟨t, r, hx, hti, hto, ?_⟩
  obtain ⟨cap', key, rfl, -⟩ | ⟨d, S', rfl, -, hr, rfl⟩ | ⟨-, hk, hsame, -⟩ := exec_next_cases hx
  · cases hi
  · cases hs.regs.symm.trans hr
    obtain rfl : recordAnswer (cipherStep engineParams S d).2 = r := by simpa [recordAnswer] using hto
    exact ⟨hs.afterStep engineParams d, congrArg (fun o => [o]) (recordAnswer_getLsbD_zero _)⟩
  · obtain ⟨hdata, hout⟩ := stepData_stepOutputs_of_not_step (fun d hd => hk d S hd hs.loaded hs.regs) r
    rw [hdata, hout]
    exact ⟨by simpa [runSteps] using hs.of_sameEngine hsame, rfl⟩

/-- The commands of a session run the loop of `process` on the data bits of its `STEP`s (R146). -/
theorem run_commands_of_session (hs : InSession s cap S0 S recs) (cmds : List Instr) {later : List HostEvent}
    (hcmds : ∀ i ∈ cmds, i.wellFormed = true ∧ startsSession i = false) (hin : s.inbox = asInputs cmds ++ later) :
    ∃ t rs, Host.Core.run core cmds.length s = .next t ∧ t.inbox = later ∧ t.outbox = s.outbox ++ rs ∧
      rs.length = cmds.length ∧
      InSession t cap S0 (runSteps engineParams S (stepData cmds)).1 (recs ++ (runSteps engineParams S (stepData cmds)).2) ∧
      stepOutputs cmds rs = (runSteps engineParams S (stepData cmds)).2.map (fun a => a.o) := by
  induction cmds generalizing s S recs with
  | nil => exact ⟨s, [], rfl, hin, by simp, rfl, by simpa [stepData, runSteps] using hs, rfl⟩
  | cons i cmds ih =>
    obtain ⟨⟨hwf, hi⟩, hcmds⟩ := List.forall_mem_cons.1 hcmds
    obtain ⟨u, r, hx, hui, huo, hu, hr⟩ :=
      exec_of_session (hs.of_sameEngine (s.sameEngine_withInbox (asInputs cmds ++ later))) hi
    obtain ⟨t, rs, hrun, hti, hto, hlen, ht, hrs⟩ := ih hu hcmds hui
    refine ⟨t, r :: rs, (run_succ_of_command _ hwf hin hx).trans hrun, hti, by simp [hto, huo], by simp [hlen], ?_, ?_⟩
    · rw [stepData_cons, runSteps_append, ← List.append_assoc]
      exact ht
    · rw [stepOutputs_cons, stepData_cons, runSteps_append, List.map_append, hr, hrs]

end

/-- Settles O55: `LOADKEY` begins the session, and `run_commands_of_session` runs the other commands in it. -/
theorem sessionIsOneProcessCall : Obligations.SessionIsOneProcessCall := by
  intro s cap key cmds later hcmds hin
  have hload := exec_loadkey_of_length cap key (s.withInbox (asInputs cmds ++ later))
  obtain ⟨t, rs, hrun, hti, hto, hlen, ht, hrs⟩ := run_commands_of_session (inSession_afterLoadkey cap key _) cmds hcmds
    (State.afterLoadkey_inbox cap key (s.withInbox (asInputs cmds ++ later)))
  refine ⟨_, t, _, rs, loadKey_of_valid (unpackKey_length key) (unpackKey_symbol key),
    (run_succ_of_command _ rfl hin hload).trans hrun, hti, by simpa using hto, hlen, hrs, ht.loaded, ht.cap_eq, ht.regs, ?_⟩
  rw [ht.init, ht.trace]
  cases cap <;> rfl

-- ---------------------------------------------------------------- reading the trace and the status

/-- The answer of a trace read with nothing to read (R70, R72). -/
theorem errorWord_traceUnavailable : errorWord .traceUnavailable = 0xC000000000000000#64 := by decide

section
variable {s : State}

theorem exec_rdinit_of_no_key (hl : s.loaded = false) : exec .rdinit s = .next (s.raise .noKeyLoaded) := by
  simp [exec, execRdinit, hl]

theorem exec_rdinit_of_no_capture (hl : s.loaded = true) (hc : s.cap = false) :
    exec .rdinit s = .next (s.raise .traceUnavailable) := by
  simp [exec, execRdinit, hl, hc]

theorem exec_rdinit_of_init {S : CipherState} (hl : s.loaded = true) (hc : s.cap = true) (hi : s.init = some S) :
    exec .rdinit s = .next (s.respondOk ((st23 S).zeroExtend 56)) := by
  simp [exec, execRdinit, hl, hc, hi]

theorem exec_rdtrace_of_no_key (idx : Nat) (hl : s.loaded = false) :
    exec (.rdtrace idx) s = .next (s.raise .noKeyLoaded) := by
  simp [exec, execRdtrace, hl]

theorem exec_rdtrace_of_no_record {idx : Nat} (hl : s.loaded = true) (h : s.cap = false ∨ s.traceRead idx = none) :
    exec (.rdtrace idx) s = .next (s.raise .traceUnavailable) := by
  obtain hc | hread := h
  · simp [exec, execRdtrace, hl, hc]
  · simp [exec, execRdtrace, hl, hread]

end

/-- Settles O31, one lemma per answer. -/
theorem rdinitCommand : Obligations.RdinitCommand := by
  intro s
  rw [← errorWord_noKeyLoaded, ← errorWord_traceUnavailable]
  refine ⟨exec_rdinit_of_no_key, exec_rdinit_of_no_capture, fun S hl hc hi => ?_⟩
  rw [exec_rdinit_of_init hl hc hi, ← respondWord_st23]
  rfl

/-- Settles O32, one lemma per answer; an index names a record iff it is below the number of records. -/
theorem rdtraceCommand : Obligations.RdtraceCommand := by
  intro s idx
  rw [← errorWord_noKeyLoaded, ← errorWord_traceUnavailable]
  refine ⟨exec_rdtrace_of_no_key idx, fun hl hc => exec_rdtrace_of_no_record hl (.inl hc), fun recs hl hc ht => ?_⟩
  have hread : s.traceRead idx = recs[idx]? := by simp [State.traceRead, ht]
  refine ⟨fun hidx => exec_rdtrace_of_no_record hl (.inr ?_), fun hidx => ?_⟩
  · rw [hread, List.getElem?_eq_none hidx]
  · rw [exec_rdtrace_of_record hl hc (hread.trans (List.getElem?_eq_getElem hidx)), ← respondWord_ok]
    rfl

/-- The number of records that `RDSTAT` shows (R37, R149). -/
def State.shownTlen (s : State) : Nat := if s.loaded && s.cap then min s.tlen tlenMax else 0

theorem State.shownTlen_lt (s : State) : s.shownTlen < 2 ^ 29 := by
  unfold State.shownTlen tlenMax
  split <;> omega

theorem State.shownTlen_eq_zero {s : State} (h : s.loaded = false ∨ s.cap = false ∨ s.trace = none) :
    s.shownTlen = 0 := by
  obtain h | h | h := h <;> simp [State.shownTlen, State.tlen, h]

/-- `RDSTAT`'s answer field by field (R37, R149). The zeros above bit 30 (status `OK`, the bits between, and those of the
payload) add nothing to the number. -/
theorem respondWord_statusWord (s : State) :
    respondWord okCode s.statusWord =
      (0#33 ++ BitVec.ofBool s.loaded ++ BitVec.ofBool s.cap ++ BitVec.ofNat 29 s.shownTlen : BitVec (33 + 1 + 1 + 29)) := by
  apply BitVec.eq_of_toNat_eq
  rw [respondWord_ok, BitVec.toNat_setWidth_of_le (by decide)]
  rfl

/-- The fields of `RDSTAT`'s answer, read back (R37, R149). -/
theorem statusAnswer_fields (s : State) :
    (respondWord okCode s.statusWord).extractLsb' 31 33 = 0#33 ∧
    (respondWord okCode s.statusWord).getLsbD 30 = s.loaded ∧ (respondWord okCode s.statusWord).getLsbD 29 = s.cap ∧
    (respondWord okCode s.statusWord).extractLsb' 0 29 = BitVec.ofNat 29 s.shownTlen := by
  have h := (eq_append_iff (n := 33 + 1 + 1) (m := 29)).1 (respondWord_statusWord s)
  simp only [eq_append_iff] at h
  simpa only [extractLsb'_extractLsb', extractLsb'_one_eq_ofBool_iff, Nat.reduceAdd, Nat.reduceLeDiff, and_assoc] using h

/-- Settles O33: the fields of the answer; the number shown fits its 29 bits. -/
theorem rdstatCommand : Obligations.RdstatCommand := by
  intro s
  obtain ⟨hrest, hloaded, hcap, htlen⟩ := statusAnswer_fields s
  refine ⟨_, rfl, hrest, hloaded, hcap, fun hl hc recs ht => ?_, fun hno => ?_⟩
  · rw [htlen, BitVec.toNat_ofNat, Nat.mod_eq_of_lt s.shownTlen_lt]
    simp [State.shownTlen, State.tlen, tlenMax, hl, hc, ht]
  · rw [htlen, State.shownTlen_eq_zero hno]

end Sys2Proof.Machine
end

section
/-! PROOFS. The character codec (45_codec_interface.md). Its statements rest on three facts about one letter: every letter is
read from some group of three bits, the letter of a group is written as that group, and a character that is no letter has no
index. -/

namespace Sys2Proof.Machine

-- ---------------------------------------------------------------- one letter and its group

/-- The letters of the codec (R160). -/
def letters : List Char := ['A', 'B', 'C', 'D', 'E', 'F', 'G', 'H']

/-- The index of a group of three bits, most significant bit first (R160). -/
def groupIndex (a b c : Bit) : Nat := 4 * a.toNat + 2 * b.toNat + c.toNat

theorem decodeGroups_cons (a b c : Bit) (bs : List Bit) :
    decodeGroups (a :: b :: c :: bs) = letterOf (groupIndex a b c) :: decodeGroups bs := rfl

/-- The letters are those of the indices below 8 (R160). -/
theorem mem_letters_iff {ch : Char} : ch ∈ letters ↔ ∃ i < 8, letterOf i = ch := by
  rw [show letters = (List.range 8).map letterOf by decide, List.mem_map]
  simp only [List.mem_range]

/-- The bits of a letter's index are its group (R160). -/
theorem exists_letterOf_groupIndex {ch : Char} (h : ch ∈ letters) : ∃ a b c, letterOf (groupIndex a b c) = ch := by
  have hgroups : ∀ i < 8, groupIndex (i.testBit 2) (i.testBit 1) (i.testBit 0) = i := by decide
  obtain ⟨i, hi, rfl⟩ := mem_letters_iff.1 h
  exact ⟨_, _, _, congrArg letterOf (hgroups i hi)⟩

theorem letterGroup_groupIndex : ∀ a b c, letterGroup (groupIndex a b c) = [a, b, c] := by decide

theorem letterIndex_letterOf_groupIndex :
    ∀ a b c, letterIndex (letterOf (groupIndex a b c)) = some (groupIndex a b c) := by decide

/-- Only letters have an index: a character in the range of A to H is the letter of its distance from A (R160). -/
theorem letterIndex_of_not_mem {ch : Char} (h : ch ∉ letters) : letterIndex ch = none := by
  refine if_neg fun hrange => h ?_
  have hch : letterOf (ch.toNat - 65) = ch := by
    rw [letterOf, Nat.add_sub_cancel' hrange.1, Char.ofNat_toNat]
  exact mem_letters_iff.2 ⟨ch.toNat - 65, by omega, hch⟩

-- ---------------------------------------------------------------- the two sides

/-- Encoding the letter of a group puts the group in front (R161). -/
theorem encodeText_letterOf_cons (a b c : Bit) {t : List Char} {bs : List Bit} (h : encodeText t = .ok bs) :
    encodeText (letterOf (groupIndex a b c) :: t) = .ok (a :: b :: c :: bs) := by
  simp [encodeText, letterIndex_letterOf_groupIndex, letterGroup_groupIndex, h]

/-- A character outside A to H is refused, wherever it stands (R161, R163). -/
theorem encodeText_of_not_mem {t : List Char} (h : ∃ ch ∈ t, ch ∉ letters) :
    encodeText t = .error .invalidCharacter := by
  induction t with
  | nil => simp at h
  | cons ch t ih =>
    by_cases hch : ch ∈ letters
    · have ht : encodeText t = .error .invalidCharacter := ih (by simpa [hch] using h)
      obtain ⟨a, b, c, rfl⟩ := exists_letterOf_groupIndex hch
      simp [encodeText, letterIndex_letterOf_groupIndex, ht]
    · simp [encodeText, letterIndex_of_not_mem hch]

theorem decodeBits_of_length {b : List Bit} (h : b.length % 3 = 0) : decodeBits b = .ok (decodeGroups b) :=
  if_neg (not_not.2 h)

theorem decodeBits_of_bad_length {b : List Bit} (h : b.length % 3 ≠ 0) : decodeBits b = .error .invalidDataLength :=
  if_pos h

/-- Every three bits are one letter (R162). -/
theorem decodeGroups_length : ∀ b : List Bit, (decodeGroups b).length = b.length / 3
  | [] | [_] | [_, _] => by simp [decodeGroups]
  | a :: b :: c :: bs => by
    rw [decodeGroups_cons, List.length_cons, decodeGroups_length bs]
    simp only [List.length_cons]
    omega

/-- Whole groups are what their letters encode to (R164). -/
theorem encodeText_decodeGroups : ∀ {b : List Bit}, b.length % 3 = 0 → encodeText (decodeGroups b) = .ok b
  | [], _ => rfl
  | [_], h | [_, _], h => by simp at h
  | a :: b :: c :: bs, h => by
    have hbs : bs.length % 3 = 0 := by
      simp only [List.length_cons] at h
      omega
    exact encodeText_letterOf_cons a b c (encodeText_decodeGroups hbs)

/-- Every text of letters is read from groups, one per letter (R162, R164). -/
theorem exists_decodeGroups_eq {t : List Char} (h : ∀ ch ∈ t, ch ∈ letters) :
    ∃ b, b.length = 3 * t.length ∧ decodeGroups b = t := by
  induction t with
  | nil => exact ⟨[], rfl, rfl⟩
  | cons ch t ih =>
    obtain ⟨hch, ht⟩ := List.forall_mem_cons.1 h
    obtain ⟨bs, hlen, rfl⟩ := ih ht
    obtain ⟨a, b, c, rfl⟩ := exists_letterOf_groupIndex hch
    exact ⟨a :: b :: c :: bs, by simp only [List.length_cons, hlen]; omega, rfl⟩

/-- Settles O58: bits that decode to the text are what the text encodes to. -/
theorem codecRoundTrip : Obligations.CodecRoundTrip := by
  refine ⟨fun t ht => ?_, fun b hb => ⟨decodeGroups b, decodeBits_of_length hb, encodeText_decodeGroups hb⟩⟩
  obtain ⟨b, hlen, rfl⟩ := exists_decodeGroups_eq ht
  have hb : b.length % 3 = 0 := by omega
  exact ⟨b, encodeText_decodeGroups hb, hlen, decodeBits_of_length hb⟩

/-- A text encodes, or one of its characters is no letter and it is refused as R163 says. -/
theorem encodeText_cases (t : List Char) :
    (∃ b, encodeText t = .ok b) ∨ (∃ ch ∈ t, ch ∉ letters) ∧ encodeText t = .error .invalidCharacter := by
  by_cases h : ∀ ch ∈ t, ch ∈ letters
  · obtain ⟨b, hb, -⟩ := codecRoundTrip.1 t h
    exact .inl ⟨b, hb⟩
  · have hbad : ∃ ch ∈ t, ch ∉ letters := by simpa using h
    exact .inr ⟨hbad, encodeText_of_not_mem hbad⟩

/-- Settles O57: each side either succeeds or fails with its one error, by `encodeText_cases` and by the length. -/
theorem codecErrors : Obligations.CodecErrors := by
  refine ⟨fun t => ⟨encodeText_of_not_mem, fun he => ?_⟩, fun t e he => ?_,
    fun b => ⟨decodeBits_of_bad_length, fun he hb => ?_⟩, fun b e he => ?_⟩
  · obtain ⟨b, hb⟩ | ⟨h, -⟩ := encodeText_cases t
    · simp [hb] at he
    · exact h
  · obtain ⟨b, hb⟩ | ⟨-, h⟩ := encodeText_cases t
    · simp [hb] at he
    · simpa [h, eq_comm] using he
  · simp [decodeBits_of_length hb] at he
  · by_cases hb : b.length % 3 = 0
    · simp [decodeBits_of_length hb] at he
    · simpa [decodeBits_of_bad_length hb, eq_comm] using he

-- ---------------------------------------------------------------- text through the engine

/-- A text that encodes is processed as bits and decoded (R165). -/
theorem encryptText_of_ok {p : Params} {K : List Nat} {S0 : CipherState} {t : List Char} {D : List Bit} (cap : Bit)
    (hK : loadKey K = .ok S0) (hD : encodeText t = .ok D) :
    encryptText p K t cap = decodeBits (process p S0 D cap).1 := by
  have hrun : encrypt p K D cap = .ok (process p S0 D cap) := encrypt_eq_ok_iff.2 ⟨S0, hK, rfl⟩
  simp only [encryptText, hD, hrun]

/-- Settles O59: the output bits are whole groups, so the cipher text encodes to them; processing them gives the text's own
bits back (`process_process`). -/
theorem textEncryptedTwiceIsTheText : Obligations.TextEncryptedTwiceIsTheText := by
  intro p K S0 t cap cap' hK ht
  obtain ⟨D, hD, hlen, hdec⟩ := codecRoundTrip.1 t ht
  have hout : (process p S0 D cap).1.length = 3 * t.length := by rw [process_output_length, hlen]
  have hgroups : (process p S0 D cap).1.length % 3 = 0 := by omega
  refine ⟨decodeGroups (process p S0 D cap).1, ?_, ?_, ?_⟩
  · rw [encryptText_of_ok cap hK hD, decodeBits_of_length hgroups]
  · rw [decodeGroups_length, hout, Nat.mul_div_cancel_left _ (by decide)]
  · rw [encryptText_of_ok cap' hK (encodeText_decodeGroups hgroups), process_process, hdec]

end Sys2Proof.Machine
end

section
/-! PROOFS. Errors (60_exceptions.md): a command answered with an error does nothing but answer (`State.raise`, R173), so it is
forgotten, and no state is fatal. -/

namespace Sys2Proof.Machine

-- ---------------------------------------------------------------- what a failed command does

/-- A command either raises an error, which is then all it does, or answers `OK` (R173). -/
theorem exec_raises_or_answers_ok {i : Instr} {s t : State} (h : exec i s = .next t) :
    (∃ e, t = s.raise e) ∨ ∃ v, t.outbox = s.outbox ++ [respondWord okCode v] := by
  obtain ⟨cap, key, -, hx⟩ | ⟨d, S, -, -, -, hx⟩ | ⟨-, -, ⟨e, hx⟩ | ⟨-, v, hx⟩⟩ := exec_cases i s <;>
    cases h.symm.trans hx
  · exact .inr ⟨_, rfl⟩
  · exact .inr ⟨_, State.afterStep_outbox _ S d s⟩
  · exact .inl ⟨e, rfl⟩
  · exact .inr ⟨v, rfl⟩

/-- A step that answers a command word with an error takes the word and raises that error, and does nothing else (R173). -/
theorem step_of_failed {s t : State} {w : Word} {rest : List HostEvent} {r : RspWord} (hin : s.inbox = .command w :: rest)
    (h : step s = .next t) (ho : t.outbox = s.outbox ++ [r]) (hne : rspStatus r ≠ okCode) :
    ∃ e, t = (s.withInbox rest).raise e ∧ r = errorWord e := by
  have hraise : ∃ e, t = (s.withInbox rest).raise e := by
    cases hd : decode w with
    | error _ => exact ⟨.illegalCommand, by cases h.symm.trans (step_of_illegal hin hd); rfl⟩
    | ok i =>
      obtain he | ⟨v, hv⟩ := exec_raises_or_answers_ok ((step_of_command hin hd).symm.trans h)
      · exact he
      · obtain rfl : r = respondWord okCode v := by simpa [ho] using hv
        exact absurd (rspStatus_respondWord okCode v) hne
  obtain ⟨e, rfl⟩ := hraise
  exact ⟨e, rfl, by simpa using ho.symm⟩

/-- Settles O43, by `step_of_failed`. -/
theorem failedCommandChangesNothing : Obligations.FailedCommandChangesNothing := by
  intro s t w rest r hin h ho hne
  obtain ⟨e, rfl, rfl⟩ := step_of_failed hin h ho hne
  exact ⟨rfl, e, rfl⟩

/-- Settles O44: the failed command left one more answer and nothing else, and no step reads the answers given before
(`stepNeverReadsEarlierAnswers`). -/
theorem failedCommandIsForgotten : Obligations.FailedCommandIsForgotten := by
  intro s t w rest r hin h ho hne
  obtain ⟨e, rfl, rfl⟩ := step_of_failed hin h ho hne
  have hsame : (s.withInbox rest).sameEngine ((s.withInbox rest).raise e) := ⟨rfl, rfl, rfl, rfl, rfl⟩
  obtain ⟨u, v, answers, hu, hv, huv, hinbox, huo, hvo⟩ := stepNeverReadsEarlierAnswers _ _ hsame rfl
  exact ⟨u, v, answers, hu, hv, huv, hinbox, huo, by simpa using hvo⟩

-- ---------------------------------------------------------------- no state is fatal

/-- Settles O46: `step_next`, and `LOADKEY` writes every field of the engine's own state. -/
theorem noStateIsFatal : Obligations.NoStateIsFatal :=
  ⟨step_next, fun s t cap key => ⟨s.afterLoadkey cap key, t.afterLoadkey cap key, exec_loadkey_of_length cap key s,
    exec_loadkey_of_length cap key t, ⟨rfl, rfl, rfl, rfl, rfl⟩, rfl, by rintro rfl; rfl⟩⟩

end Sys2Proof.Machine
end

section
/-! PROOFS. Reset (70_reset_and_hazards.md): the reset input leaves no key, no capture and no trace, and in such a state every
command but `LOADKEY` only answers. -/

namespace Sys2Proof.Machine

-- ---------------------------------------------------------------- the reset input

/-- A step that takes the reset input resets the engine (R200, R201). -/
theorem step_of_reset {s : State} {rest : List HostEvent} (hin : s.inbox = .reset :: rest) :
    step s = .next (s.withInbox rest).resetEngine := by
  simp [step, takeInput, hin]

/-- Settles O39: `step_of_reset`, and the reset engine has the values of R39. -/
theorem resetInputClearsTheEngine : Obligations.ResetInputClearsTheEngine :=
  fun s rest hin => ⟨(s.withInbox rest).resetEngine, step_of_reset hin, rfl, rfl, rfl, rfl, rfl, rfl⟩

-- ---------------------------------------------------------------- the answers after reset

/-- With no key and no capture the status word is 0 (R149, R202). -/
theorem respondWord_statusWord_of_no_key {s : State} (hl : s.loaded = false) (hc : s.cap = false) :
    respondWord okCode s.statusWord = 0#64 := by
  rw [respondWord_statusWord, State.shownTlen_eq_zero (.inl hl), hl, hc]
  rfl

/-- Settles O40: after reset `LOADED` and `CAP` are 0, which makes the status 0 and the three commands that need a key fail;
`LOADKEY` starts a session in every state. -/
theorem answersAfterReset : Obligations.AnswersAfterReset := by
  rintro s ⟨hl, hc, -, -, -⟩
  rw [← errorWord_noKeyLoaded, ← respondWord_statusWord_of_no_key hl hc]
  exact ⟨rfl, fun d => exec_step_of_no_key d (.inl hl), exec_rdinit_of_no_key hl, fun idx => exec_rdtrace_of_no_key idx hl,
    fun cap key => ⟨s.afterLoadkey cap key, exec_loadkey_of_length cap key s, rfl, rfl⟩⟩

end Sys2Proof.Machine
end

section
/-! PROOFS. Statements beside the other families: the sample command words of the test vectors (95_test_vectors.md), the
commands in states no run reaches (log 8), and the port's two inputs that are no command (logs 3 and 9). -/

namespace Sys2Proof.Machine

-- ---------------------------------------------------------------- sample command words

/-- The decoder gives no command exactly on the illegal words (R66). -/
theorem decode_toOption_isNone_iff {w : Word} : (decode w).toOption.isNone = true ↔ IllegalWord w := by
  rw [← decode_eq_error_iff]
  cases decode w <;> simp [Except.toOption]

/-- Settles O7: each legal word is the `encode` of its command, by `decode_eq_ok_iff`; E8 and E9 have a reserved `op`, E10 a
reserved bit of `STEP`, E11 a reserved bit of `RDINIT` and `RDSTAT`. -/
theorem sampleWordsDecode : Obligations.SampleWordsDecode := by
  simp only [Obligations.SampleWordsDecode, decode_eq_ok_iff, List.all_eq_true, decode_toOption_isNone_iff,
    List.forall_mem_cons]
  refine ⟨?_, ?_, ?_, ?_, ?_, ?_, ?_, ?_, ?_, ?illegal⟩
  case illegal =>
    exact ⟨.inl (by decide), .inl (by decide), .inl (by decide), .inl (by decide), .inr (.inl (by decide)),
      .inr (.inl (by decide)), .inr (.inr (by decide)), .inr (.inr (by decide)), by simp⟩
  all_goals decide

-- ---------------------------------------------------------------- states no run reaches

/-- `RDINIT` with a key and no INIT, whatever `CAP` is (R147, log 8). -/
theorem exec_rdinit_of_no_init {s : State} (hl : s.loaded = true) (hi : s.init = none) :
    exec .rdinit s = .next (s.raise .traceUnavailable) := by
  cases hc : s.cap with
  | false => exact exec_rdinit_of_no_capture hl hc
  | true => simp [exec, execRdinit, hl, hc, hi]

/-- Settles O29: `raise` writes nothing but the answer; a trace that does not exist has no record to read. -/
theorem missingStateIsAnsweredByAnError : Obligations.MissingStateIsAnsweredByAnError := by
  intro s
  refine ⟨fun d hr => exec_step_of_no_key d (.inr hr), fun hl _ hi => exec_rdinit_of_no_init hl hi,
    fun idx hl _ ht => exec_rdtrace_of_no_record hl (.inr ?_)⟩
  simp [State.traceRead, ht]

-- ---------------------------------------------------------------- the port

/-- With no input the engine waits (R201, log 3). -/
theorem step_of_no_input {s : State} (hin : s.inbox = []) : step s = .next s := by
  simp [step, takeInput, hin]

/-- Settles O38: `step_of_no_input`, and `resetEngine` keeps the two sides of the port. -/
theorem waitingAndResetLeaveThePortAlone : Obligations.WaitingAndResetLeaveThePortAlone :=
  ⟨fun _ => step_of_no_input, fun s rest hin => ⟨(s.withInbox rest).resetEngine, step_of_reset hin, rfl, rfl⟩⟩

end Sys2Proof.Machine
end
